-- ==== Sys2Proof/Word.lean ====
section
/-! DEFINITION. The word types of the scratch-gcc MIPS engine (spec 00_scope R7, R15; 10_state R24).

Every register, the accumulators, the pc and every address are 32-bit vectors, because the spec
shifts, masks and wraps them.  A register index is the 5-bit field of the encoding. -/

namespace Sys2Proof

/-- A 32-bit word: register contents, `hi`, `lo`, `pc`, addresses, instruction words (R7). -/
abbrev Word := BitVec 32

/-- A 16-bit halfword (R54). -/
abbrev Half := BitVec 16

/-- One byte of memory or of the output stream (R43, R33). -/
abbrev Byte := BitVec 8

/-- A register index: a 5-bit field, so that every index is in 0..31 (R24). -/
abbrev RegIdx := BitVec 5

/-- The raw 16-bit immediate field of an I-type instruction (R66). -/
abbrev Imm := BitVec 16

end Sys2Proof
end

