-- ==== Sys2Proof/Config.lean ====
section
/-! DEFINITION. The parameters of one engine (spec 00_scope R5 to R10; 92_eei_decisions P1 to P8)
and the one value the spec leaves free, the host's answer to a `syscall`.

The parameters are plain data and stand in `State.cfg`, which no step changes (R31), so that every
statement about a state holds for every choice of them. -/

namespace Sys2Proof

/-- `MMIO_WATCH = some(OUT_ADDR, HALT_ADDR)` (R10, R58). -/
structure MmioWatch where
  outAddr  : Word
  haltAddr : Word
  deriving DecidableEq, Repr

/-- The two values the parameter `LW_OPCODE` may take (R75, decision D12a, conflict C7). -/
inductive LwOpcode where
  /-- 35, the spec's value and the standard MIPS32 one. -/
  | mips32
  /-- 34, the source's literal; then 35 is unrecognized. -/
  | sourceLiteral
  deriving DecidableEq, Repr

/-- What the host's syscall handler may answer (R9, R132). -/
inductive SyscallAnswer where
  /-- `Result(v)`: a value for `x[2]`. -/
  | result (v : Word)
  /-- `Halt`: a request that the engine become `Halted`. -/
  | halt
  deriving DecidableEq, Repr, Inhabited

/-- The configuration of one run (R5, R6, R8, R10; P8).  `PROGRAM` is an argument of construction
(`Machine.launch`), and `SYSCALL_HANDLER` is `Config.syscallAnswer` below. -/
structure Config where
  /-- `MEMSIZE`, the number of addressable bytes; `Config.wf` is the range R5 gives it. -/
  memSize    : Nat
  /-- `STACK_TOP`, the initial value of `sp` (R6). -/
  stackTop   : Word
  /-- `STACK_LIMIT`, the overflow threshold (R6). -/
  stackLimit : Word
  /-- `ENTRY_PC`, the address of the first instruction (R8). -/
  entryPc    : Word
  /-- `LOAD_ADDR`, where the program's first word is placed (R8). -/
  loadAddr   : Word
  /-- `MMIO_WATCH` (R10). -/
  mmioWatch  : Option MmioWatch
  /-- `LW_OPCODE` (R75, D12a). -/
  lwOpcode   : LwOpcode
  deriving DecidableEq, Repr

/-- The host's answer to a `syscall`, a FREE VALUE: it has no body, so nothing can be proved of which
answer it is.  It is applied to the number of answers drawn before and to the register file
`x[0..31]` the handler receives (R9: "a draw from the host (an oracle), because the host may keep
state of its own"; R132).  DESIGN CHOICE, safe (log 2). -/
opaque Config.syscallAnswer : Nat → Vector Word 32 → SyscallAnswer

/-- The configuration `State.reset` uses: the one of the spec's example programs
(95_test_vectors section 4).  The spec gives no default ("no defaults assumed", R5 to R10).
DESIGN CHOICE, unsafe for a claim about `State.reset` alone (log 1). -/
def Config.standard : Config where
  memSize    := 0x2000
  stackTop   := 0x1000#32
  stackLimit := 0x800#32
  entryPc    := 0#32
  loadAddr   := 0#32
  mmioWatch  := none
  lwOpcode   := .mips32

end Sys2Proof
end

