-- ==== Sys2Proof/Syntax.lean ====
section
/-! DEFINITION. The instruction syntax: one constructor for each of the 47 rows of
spec/opcode_table.json (30_encoding R74, R75).

A decoded instruction keeps EVERY raw field of its word, also those its rule ignores (R70, R71), so
that encoding is the inverse of decoding.  Every field has exactly its encoding's width, so there
is no ill-formed term of `Instr` (R24, R71). -/

namespace Sys2Proof

/-- The fields of an R-type word besides opcode and func (R65). -/
structure RFields where
  rs    : RegIdx
  rt    : RegIdx
  rd    : RegIdx
  shamt : BitVec 5
  deriving DecidableEq, Repr

/-- The fields of an I-type word besides the opcode (R66). -/
structure IFields where
  rs  : RegIdx
  rt  : RegIdx
  imm : Imm
  deriving DecidableEq, Repr

/-- A word split into its raw fields by the opcode alone (R64): opcode 0 is R-type, any other opcode
is I-type.  The mnemonic is not looked up yet. -/
inductive Raw where
  | r (f : RFields) (func : BitVec 6)
  | i (op : BitVec 6) (f : IFields)
  deriving DecidableEq, Repr

/-- The decode faults (R69, R76). -/
inductive DecodeFault where
  /-- The opcode is not 0 and not in the table of R75. -/
  | unknownOpcode
  /-- The opcode is 0 and the func is not in the table of R74. -/
  | unknownFunction
  deriving DecidableEq, Repr

/-- The 47 instructions.  R-type first (R74), then I-type (R75), each in the order of its table. -/
inductive Instr where
  /-- `sll` (R92). -/
  | sll (f : RFields)
  /-- `srl` (R93). -/
  | srl (f : RFields)
  /-- `sra` (R94). -/
  | sra (f : RFields)
  /-- `sllv` (R95). -/
  | sllv (f : RFields)
  /-- `srlv` (R96). -/
  | srlv (f : RFields)
  /-- `srav` (R97). -/
  | srav (f : RFields)
  /-- `jr` (R121). -/
  | jr (f : RFields)
  /-- `jalr` (R122). -/
  | jalr (f : RFields)
  /-- `syscall` (R133). -/
  | syscall (f : RFields)
  /-- `mfhi` (R103). -/
  | mfhi (f : RFields)
  /-- `mthi` (R104). -/
  | mthi (f : RFields)
  /-- `mflo` (R105). -/
  | mflo (f : RFields)
  /-- `mtlo` (R106). -/
  | mtlo (f : RFields)
  /-- `mult` (R99). -/
  | mult (f : RFields)
  /-- `multu` (R100). -/
  | multu (f : RFields)
  /-- `div` (R101). -/
  | div (f : RFields)
  /-- `divu` (R102). -/
  | divu (f : RFields)
  /-- `add` (R81). -/
  | add (f : RFields)
  /-- `addu` (R82). -/
  | addu (f : RFields)
  /-- `sub` (R83). -/
  | sub (f : RFields)
  /-- `subu` (R84). -/
  | subu (f : RFields)
  /-- `and` (R85). -/
  | and (f : RFields)
  /-- `or` (R86). -/
  | or (f : RFields)
  /-- `xor` (R87). -/
  | xor (f : RFields)
  /-- `nor` (R88). -/
  | nor (f : RFields)
  /-- `slt` (R89). -/
  | slt (f : RFields)
  /-- `sltu` (R90). -/
  | sltu (f : RFields)
  /-- `beq` (R117). -/
  | beq (f : IFields)
  /-- `bne` (R118). -/
  | bne (f : IFields)
  /-- `blez` (R119). -/
  | blez (f : IFields)
  /-- `bgtz` (R120). -/
  | bgtz (f : IFields)
  /-- `addi` (R108). -/
  | addi (f : IFields)
  /-- `addiu` (R109). -/
  | addiu (f : IFields)
  /-- `slti` (R110). -/
  | slti (f : IFields)
  /-- `sltiu` (R111). -/
  | sltiu (f : IFields)
  /-- `andi` (R112). -/
  | andi (f : IFields)
  /-- `ori` (R113). -/
  | ori (f : IFields)
  /-- `xori` (R114). -/
  | xori (f : IFields)
  /-- `lui` (R115). -/
  | lui (f : IFields)
  /-- `lb` (R124). -/
  | lb (f : IFields)
  /-- `lh` (R125). -/
  | lh (f : IFields)
  /-- `lw` (R126). -/
  | lw (f : IFields)
  /-- `lbu` (R127). -/
  | lbu (f : IFields)
  /-- `lhu` (R128). -/
  | lhu (f : IFields)
  /-- `sb` (R129). -/
  | sb (f : IFields)
  /-- `sh` (R130). -/
  | sh (f : IFields)
  /-- `sw` (R131). -/
  | sw (f : IFields)
  deriving DecidableEq, Repr

end Sys2Proof
end

