-- ==== Sys2Proof/Decode.lean ====
section
/-! DEFINITION. Decoding and encoding (30_encoding R64 to R77), with the big-endian byte order of an
instruction word (20_memory R46).

Decoding is total on every 32-bit word and rejects by name.  A word is first split into raw fields
(`Raw.ofWord`), then its mnemonic is looked up in the table of its format (`classifyR`,
`classifyI`).  The encoder goes the same way back. -/

namespace Sys2Proof

/-- The value of the parameter `LW_OPCODE` (R75, D12a). -/
def LwOpcode.code : LwOpcode → BitVec 6
  | .mips32 => 35#6
  | .sourceLiteral => 34#6

/-- Split a word into its raw fields (R65, R66, R69). -/
def Raw.ofWord (w : Word) : Raw :=
  let op := w.extractLsb' 26 6
  let rs := w.extractLsb' 21 5
  let rt := w.extractLsb' 16 5
  if op = 0#6 then
    .r ⟨rs, rt, w.extractLsb' 11 5, w.extractLsb' 6 5⟩ (w.extractLsb' 0 6)
  else
    .i op ⟨rs, rt, w.extractLsb' 0 16⟩

/-- Put raw fields back into a word (R70). -/
def Raw.toWord : Raw → Word
  | .r f func => 0#6 ++ f.rs ++ f.rt ++ f.rd ++ f.shamt ++ func
  | .i op f => op ++ f.rs ++ f.rt ++ f.imm

/-- The table of R74: which R-type instruction a func value selects. -/
def classifyR (f : RFields) (func : BitVec 6) : Except DecodeFault Instr :=
  match func with
  | 0x00#6 => .ok (.sll f)
  | 0x02#6 => .ok (.srl f)
  | 0x03#6 => .ok (.sra f)
  | 0x04#6 => .ok (.sllv f)
  | 0x06#6 => .ok (.srlv f)
  | 0x07#6 => .ok (.srav f)
  | 0x08#6 => .ok (.jr f)
  | 0x09#6 => .ok (.jalr f)
  | 0x0C#6 => .ok (.syscall f)
  | 0x10#6 => .ok (.mfhi f)
  | 0x11#6 => .ok (.mthi f)
  | 0x12#6 => .ok (.mflo f)
  | 0x13#6 => .ok (.mtlo f)
  | 0x18#6 => .ok (.mult f)
  | 0x19#6 => .ok (.multu f)
  | 0x1A#6 => .ok (.div f)
  | 0x1B#6 => .ok (.divu f)
  | 0x20#6 => .ok (.add f)
  | 0x21#6 => .ok (.addu f)
  | 0x22#6 => .ok (.sub f)
  | 0x23#6 => .ok (.subu f)
  | 0x24#6 => .ok (.and f)
  | 0x25#6 => .ok (.or f)
  | 0x26#6 => .ok (.xor f)
  | 0x27#6 => .ok (.nor f)
  | 0x2A#6 => .ok (.slt f)
  | 0x2B#6 => .ok (.sltu f)
  | _ => .error .unknownFunction

/-- The table of R75: which I-type instruction a nonzero opcode selects.  `lw` stands at the
parameter `LW_OPCODE` and nowhere else (D12a). -/
def classifyI (lw : LwOpcode) (op : BitVec 6) (f : IFields) : Except DecodeFault Instr :=
  match op with
  | 0x04#6 => .ok (.beq f)
  | 0x05#6 => .ok (.bne f)
  | 0x06#6 => .ok (.blez f)
  | 0x07#6 => .ok (.bgtz f)
  | 0x08#6 => .ok (.addi f)
  | 0x09#6 => .ok (.addiu f)
  | 0x0A#6 => .ok (.slti f)
  | 0x0B#6 => .ok (.sltiu f)
  | 0x0C#6 => .ok (.andi f)
  | 0x0D#6 => .ok (.ori f)
  | 0x0E#6 => .ok (.xori f)
  | 0x0F#6 => .ok (.lui f)
  | 0x20#6 => .ok (.lb f)
  | 0x21#6 => .ok (.lh f)
  | 0x24#6 => .ok (.lbu f)
  | 0x25#6 => .ok (.lhu f)
  | 0x28#6 => .ok (.sb f)
  | 0x29#6 => .ok (.sh f)
  | 0x2B#6 => .ok (.sw f)
  | op => if op = lw.code then .ok (.lw f) else .error .unknownOpcode

/-- Look the mnemonic of split fields up in the table of their format (R69). -/
def Raw.classify (lw : LwOpcode) : Raw → Except DecodeFault Instr
  | .r f func => classifyR f func
  | .i op f => classifyI lw op f

/-- Decode a word (R69).  Fields an instruction does not use are not checked (R71). -/
def decode (lw : LwOpcode) (w : Word) : Except DecodeFault Instr :=
  (Raw.ofWord w).classify lw

/-- The raw fields of an instruction, with its opcode or func from the tables of R74 and R75. -/
def Instr.raw (lw : LwOpcode) : Instr → Raw
  | .sll f => .r f 0x00#6
  | .srl f => .r f 0x02#6
  | .sra f => .r f 0x03#6
  | .sllv f => .r f 0x04#6
  | .srlv f => .r f 0x06#6
  | .srav f => .r f 0x07#6
  | .jr f => .r f 0x08#6
  | .jalr f => .r f 0x09#6
  | .syscall f => .r f 0x0C#6
  | .mfhi f => .r f 0x10#6
  | .mthi f => .r f 0x11#6
  | .mflo f => .r f 0x12#6
  | .mtlo f => .r f 0x13#6
  | .mult f => .r f 0x18#6
  | .multu f => .r f 0x19#6
  | .div f => .r f 0x1A#6
  | .divu f => .r f 0x1B#6
  | .add f => .r f 0x20#6
  | .addu f => .r f 0x21#6
  | .sub f => .r f 0x22#6
  | .subu f => .r f 0x23#6
  | .and f => .r f 0x24#6
  | .or f => .r f 0x25#6
  | .xor f => .r f 0x26#6
  | .nor f => .r f 0x27#6
  | .slt f => .r f 0x2A#6
  | .sltu f => .r f 0x2B#6
  | .beq f => .i 0x04#6 f
  | .bne f => .i 0x05#6 f
  | .blez f => .i 0x06#6 f
  | .bgtz f => .i 0x07#6 f
  | .addi f => .i 0x08#6 f
  | .addiu f => .i 0x09#6 f
  | .slti f => .i 0x0A#6 f
  | .sltiu f => .i 0x0B#6 f
  | .andi f => .i 0x0C#6 f
  | .ori f => .i 0x0D#6 f
  | .xori f => .i 0x0E#6 f
  | .lui f => .i 0x0F#6 f
  | .lb f => .i 0x20#6 f
  | .lh f => .i 0x21#6 f
  | .lw f => .i lw.code f
  | .lbu f => .i 0x24#6 f
  | .lhu f => .i 0x25#6 f
  | .sb f => .i 0x28#6 f
  | .sh f => .i 0x29#6 f
  | .sw f => .i 0x2B#6 f

/-- Encode an instruction (R70). -/
def encode (lw : LwOpcode) (i : Instr) : Word := (i.raw lw).toWord

/-- The word whose bytes, from the lowest address up, are `b0 b1 b2 b3`: big-endian (R46). -/
def wordOfBytes (b0 b1 b2 b3 : Byte) : Word := b0 ++ b1 ++ b2 ++ b3

/-- Byte `k` (0..3) of a word in the order of its addresses, `w[31-8k : 24-8k]` (R46, R152). -/
def byteOfWord (w : Word) (k : Nat) : Byte := w.extractLsb' (24 - 8 * k) 8

/-- Decode the four bytes of an instruction, given from the lowest address up (R64). -/
def decodeBytes (lw : LwOpcode) (b0 b1 b2 b3 : Byte) : Except DecodeFault Instr :=
  decode lw (wordOfBytes b0 b1 b2 b3)

/-- The instruction of a word given as a number, its bits above `nbits` zero: laid out as the
hardware stores it and given to the decoder, with the spec's `LW_OPCODE = 35`. -/
def decodeTableWord (nbits w : Nat) : Option Instr :=
  let v : Word := BitVec.ofNat 32 (w % 2 ^ nbits)
  (decodeBytes .mips32 (byteOfWord v 0) (byteOfWord v 1) (byteOfWord v 2) (byteOfWord v 3)).toOption

end Sys2Proof
end

