-- ==== Sys2Proof/Machine/State.lean ====
section
/-! DEFINITION. The engine's state, its fault kinds and run states, and the state after reset
(10_state, "State summary"; 60_exceptions R135, R136; 70_reset_and_hazards R153).

State is plain data.  Taking a fault is a NEXT state whose run state is `Faulted` (R36, R136, R137;
log 4), so a step of this engine answers neither `Outcome.fault` nor `Outcome.refused`. -/

namespace Sys2Proof.Machine

/-- The two ways a data access can be refused (R135). -/
inductive MemFault where
  | misaligned
  | outOfBounds
  deriving DecidableEq, Repr

/-- The five fault kinds of R135, in the order of its table.  They are what `RunState.faulted`
records; a step that takes one answers `Outcome.next` (log 4), which is exact, hence safe. -/
inductive Fault where
  /-- Raised by the stack check of any step (R37).  Safe: the spec's own fault. -/
  | stackOverflow
  /-- Raised by the fetch at a misaligned or out-of-bounds pc (R38, R53).  Safe: the spec's own. -/
  | badFetch
  /-- Raised by a fetched word that does not decode (R39, R76).  Safe: the spec's own. -/
  | illegalInstruction (kind : DecodeFault)
  /-- Raised by a load or store (R51, R52).  Safe: the spec's own. -/
  | memoryFault (kind : MemFault)
  /-- Raised by `add`, `sub`, `addi` on signed overflow (R81, R83, R108).  Safe: the spec's own. -/
  | arithmeticFault
  deriving DecidableEq, Repr

/-- Reasons to have no meaning.  Every instruction of this engine has one, so nothing raises it. -/
inductive Refusal where
  /-- An instruction with no meaning yet, by its mnemonic.  Raised by nothing; would be safe. -/
  | notModelled (mnemonic : String)
  deriving DecidableEq, Repr

/-- The run state (R32).  `halted` and `faulted` are terminal (R41). -/
inductive RunState where
  | running
  | halted
  /-- `Faulted(reason, fpc)`: the fault kind and the pc of the step that faulted (R136). -/
  | faulted (reason : Fault) (fpc : Word)
  deriving DecidableEq, Repr

/-- Memory: the bytes that are not 0, by strictly rising address.  An unlisted address reads 0,
the spec's initial contents (R44). -/
abbrev Memory := List Host.Cell

/-- The whole state of one engine (R34: "The engine holds no other state"), the constants of its run
(R31), and the two fields through which the host's syscall answers come (R9, R132; log 2). -/
structure State where
  /-- `x[0]`…`x[31]` (R20).  Read and written only through `readReg` and `writeReg`, which make
  `x[0]` zero (R21). -/
  regs : Vector Word 32
  /-- The accumulator `hi` (R25). -/
  hi : Word
  /-- The accumulator `lo` (R25). -/
  lo : Word
  /-- The program counter (R26). -/
  pc : Word
  /-- `mem[0 .. MEMSIZE-1]` (R43). -/
  mem : Memory
  /-- The run state (R32). -/
  run : RunState
  /-- The output stream, oldest byte first (R33). -/
  out : List Byte
  /-- The constants of the run (R31). -/
  cfg : Config
  /-- Syscall answers the host has already settled, oldest first: the model's own field (log 2). -/
  hostAnswers : List SyscallAnswer
  /-- How many answers have been drawn: the model's own field (log 2). -/
  hostDraws : Nat
  deriving DecidableEq, Repr

/-- The engine as constructed from a configuration, before a program is loaded (R153): every
register is 0 but `x[29]`, which is `STACK_TOP`. -/
def State.initial (c : Config) : State where
  regs        := (Vector.replicate 32 0#32).set 29 c.stackTop
  hi          := 0#32
  lo          := 0#32
  pc          := c.entryPc
  mem         := []
  run         := .running
  out         := []
  cfg         := c
  hostAnswers := []
  hostDraws   := 0

/-- The machine right after reset, for the configuration `Config.standard` (log 1). -/
def State.reset : State := State.initial Config.standard

end Sys2Proof.Machine
end

