-- ==== Sys2Proof/Machine/Memory.lean ====
section
/-! DEFINITION. The byte memory and its big-endian accesses (20_memory R43 to R47, R51, R52).

These operations do not check addresses; `State.accessFault` of Ops.lean does, before any of them is
reached.  An address is a `Nat` here, because the checks are made on integers without
wrap-around (R49). -/

namespace Sys2Proof.Machine

/-- The canonical form: addresses strictly rise and no listed byte is 0, so that equal memories are
equal lists. -/
def Memory.wf : Memory → Bool
  | [] => true
  | [c] => decide (c.2 ≠ 0#8)
  | c :: d :: m => decide (c.2 ≠ 0#8) && decide (c.1 < d.1) && Memory.wf (d :: m)

/-- `mem[a]`; an unlisted byte is 0 (R44). -/
def Memory.read : Memory → Nat → Byte
  | [], _ => 0#8
  | c :: m, a => if c.1 = a then c.2 else Memory.read m a

/-- List the byte `b` at `a` in front of `m`, unless it is 0. -/
def Memory.cons (a : Nat) (b : Byte) (m : Memory) : Memory := if b = 0#8 then m else (a, b) :: m

/-- `mem[a] <- b`, keeping the canonical form. -/
def Memory.write : Memory → Nat → Byte → Memory
  | [], a, b => Memory.cons a b []
  | c :: m, a, b =>
    if a < c.1 then Memory.cons a b (c :: m)
    else if c.1 = a then Memory.cons a b m
    else c :: Memory.write m a b

/-- Two bytes, the most significant at the lowest address (R46, R51). -/
def Memory.readHalf (m : Memory) (a : Nat) : Half := m.read a ++ m.read (a + 1)

/-- Four bytes, the most significant at the lowest address (R46, R51). -/
def Memory.readWord (m : Memory) (a : Nat) : Word :=
  wordOfBytes (m.read a) (m.read (a + 1)) (m.read (a + 2)) (m.read (a + 3))

/-- Store the low byte of `v` (R52, n = 1). -/
def Memory.writeByte (m : Memory) (a : Nat) (v : Word) : Memory := m.write a (byteOfWord v 3)

/-- Store the low halfword of `v`, its high byte at the lower address (R52, n = 2). -/
def Memory.writeHalf (m : Memory) (a : Nat) (v : Word) : Memory :=
  (m.write a (byteOfWord v 2)).write (a + 1) (byteOfWord v 3)

/-- Store the word `v`, its most significant byte at the lowest address (R52, n = 4). -/
def Memory.writeWord (m : Memory) (a : Nat) (v : Word) : Memory :=
  (((m.write a (byteOfWord v 0)).write (a + 1) (byteOfWord v 1)).write (a + 2)
    (byteOfWord v 2)).write (a + 3) (byteOfWord v 3)

end Sys2Proof.Machine
end

