-- ==== Sys2Proof/Machine/Ops.lean ====
section
/-! DEFINITION. The named operations every meaning is made of: registers, taking a fault, retiring,
checked memory access, the host watch, and the host's syscall answer.

A meaning computes from the state at the start of the step and answers ONE whole next state
(00_scope R18, 10_state R40): either every write with the next pc, or only the fault. -/

namespace Sys2Proof.Machine

/-- What a meaning answers. -/
abbrev Result := Host.Outcome State Fault Refusal

/-! ### Registers -/

/-- `x[r]`; `x[0]` reads 0 (R16, R21). -/
def State.readReg (s : State) (r : RegIdx) : Word := if r = 0#5 then 0#32 else s.regs[r.toNat]

/-- `x[r] <- v`; a write to `x[0]` is discarded (R16, R21). -/
def State.writeReg (s : State) (r : RegIdx) (v : Word) : State :=
  { s with regs := if r = 0#5 then s.regs else s.regs.set r.toNat v }

/-- The register file as the host's handler receives it, with `x[0]` zero (R132, R21). -/
def State.regFile (s : State) : Vector Word 32 := s.regs.set 0 0#32

/-- `SP_INDEX`, the register that is `sp` (R12, R22; D3, UNVERIFIED, log 9). -/
def spIndex : RegIdx := 29#5

/-- `SYSCALL_RESULT_REG` (R11; D22, UNVERIFIED, log 19). -/
def syscallResultReg : RegIdx := 2#5

/-! ### Field updates -/

/-- `hi <- v`. -/
def State.setHi (s : State) (v : Word) : State := { s with hi := v }
/-- `lo <- v`. -/
def State.setLo (s : State) (v : Word) : State := { s with lo := v }
/-- `pc <- v`. -/
def State.setPc (s : State) (v : Word) : State := { s with pc := v }
/-- Replace the memory. -/
def State.setMem (s : State) (m : Memory) : State := { s with mem := m }
/-- Change the run state. -/
def State.setRun (s : State) (r : RunState) : State := { s with run := r }
/-- Append one byte to the output stream (R33). -/
def State.emit (s : State) (b : Byte) : State := { s with out := s.out ++ [b] }

/-! ### Taking a fault

The engine has no trap return (R138), so nothing stands beside it. -/

/-- `raise k`: the run state becomes `Faulted(k, pc)` and nothing else changes
(R18, R136, R137). -/
def State.takeFault (s : State) (k : Fault) : State := s.setRun (.faulted k s.pc)

/-- End the step with the fault `k` (R18). -/
def raise (k : Fault) (s : State) : Result := .next (s.takeFault k)

/-! ### Retiring -/

/-- Retire with the next pc `target` (R28). -/
def retireTo (target : Word) (s : State) : Result := .next (s.setPc target)

/-- Retire with the default next pc, `pc + 4` modulo 2^32 (R28, R29). -/
def retire (s : State) : Result := retireTo (s.pc + 4#32) s

/-- Write a result to `rd` and retire (R80, R91, R107). -/
def writeAndRetire (rd : RegIdx) (v : Word) (s : State) : Result := retire (s.writeReg rd v)

/-! ### Checked memory access -/

/-- The fault of an access of `n` bytes at `a`, alignment first (R48, R49, R50; D6, D7,
UNVERIFIED, log 11). -/
def State.accessFault (s : State) (a : Word) (n : Nat) : Option MemFault :=
  if a.toNat % n ≠ 0 then some .misaligned
  else if s.cfg.memSize < a.toNat + n then some .outOfBounds
  else none

/-- A load of `n` bytes at `ea`: check, read, write `rt`, retire (R51, R123).  `value` is the access
with its extension. -/
def load (n : Nat) (value : Memory → Nat → Word) (ea : Word) (rt : RegIdx) (s : State) : Result :=
  match s.accessFault ea n with
  | some k => raise (.memoryFault k) s
  | none => writeAndRetire rt (value s.mem ea.toNat) s

/-- The host watch on a store of `sv` at `ea` (R58, R143; D26, UNVERIFIED, log 20): a byte at
`OUT_ADDR` is appended to `out`, a 1 at `HALT_ADDR` halts; only the exact address counts. -/
def State.watch (s : State) (ea sv : Word) : State :=
  match s.cfg.mmioWatch with
  | none => s
  | some m =>
    let s := if ea = m.outAddr then s.emit (sv.extractLsb' 0 8) else s
    if ea = m.haltAddr ∧ sv = 1#32 then s.setRun .halted else s

/-- A store of `n` bytes at `ea`: check, write, host watch, retire (R52, R58, R123).  `write` is the
access, `v` the register's value and `sv` the stored part of it, zero-extended. -/
def store (n : Nat) (write : Memory → Nat → Word → Memory) (ea v sv : Word) (s : State) : Result :=
  match s.accessFault ea n with
  | some k => raise (.memoryFault k) s
  | none => retire ((s.setMem (write s.mem ea.toNat v)).watch ea sv)

/-! ### The host's syscall answer -/

/-- The answer the host gives to the `syscall` of this state: the next one it has settled, else the
free value `Config.syscallAnswer` (R9, R132; D23; DESIGN CHOICE, safe, log 2). -/
def State.hostAnswer (s : State) : SyscallAnswer :=
  match s.hostAnswers with
  | a :: _ => a
  | [] => Config.syscallAnswer s.hostDraws s.regFile

/-- One answer has been drawn (log 2). -/
def State.drawAnswer (s : State) : State :=
  { s with hostAnswers := s.hostAnswers.tail, hostDraws := s.hostDraws + 1 }

/-- What the answer does: `Result(v)` writes `x[2]`, `Halt` halts as the step retires (R133). -/
def State.applyAnswer (s : State) : SyscallAnswer → State
  | .result v => s.writeReg syscallResultReg v
  | .halt => s.setRun .halted

end Sys2Proof.Machine
end

