-- ==== Sys2Proof/Machine/Flags.lean ====
section
/-! DEFINITION. Overflow and comparison.  The engine has no status flags (10_state R30): overflow
raises a fault, and a comparison is written to a register or decides a branch. -/

namespace Sys2Proof.Machine

/-- The exact integer is in the signed 32-bit range `[-2^31, 2^31 - 1]` (R80). -/
def fitsSigned (t : Int) : Bool := decide (-2 ^ 31 ≤ t) && decide (t ≤ 2 ^ 31 - 1)

/-- A condition as a 32-bit 0 or 1 (R89, R90). -/
def bit (c : Bool) : Word := if c then 1#32 else 0#32

/-- `s(a) < s(b)` (R89; D21, UNVERIFIED, log 18). -/
def ltSigned (a b : Word) : Bool := decide (a.toInt < b.toInt)

/-- `u(a) < u(b)` (R90; D21, UNVERIFIED, log 18). -/
def ltUnsigned (a b : Word) : Bool := decide (a.toNat < b.toNat)

/-- Write the exact integer `t` to `rd` and go on, or take `ArithmeticFault` if it is outside the
signed 32-bit range (R81, R83, R108).  The check is made whatever `rd` is. -/
def trapOrWrite (rd : RegIdx) (t : Int) (s : State) : Result :=
  if fitsSigned t then writeAndRetire rd (BitVec.ofInt 32 t) s else raise .arithmeticFault s

end Sys2Proof.Machine
end

