-- ==== Sys2Proof/Machine/Operands.lean ====
section
/-! DEFINITION. The operand forms: how an immediate field becomes a 32-bit operand (30_encoding R68),
the one addressing mode (R72, 45_load_store R123), and the shift counts (41_shifts R91). -/

namespace Sys2Proof.Machine

/-- `sext_32(imm)`: addi, addiu, slti, sltiu and the load and store offsets (R68). -/
def signImm (imm : Imm) : Word := imm.signExtend 32

/-- `zext_32(imm)`: andi, ori, xori (R68). -/
def zeroImm (imm : Imm) : Word := imm.setWidth 32

/-- `imm ++ 0x0000`: lui (R68, R115). -/
def upperImm (imm : Imm) : Word := imm ++ 0#16

/-- `pc + 4 + (sext_32(imm) << 2)` modulo 2^32: the target of a taken branch (R68, R116, R29). -/
def branchTarget (pc : Word) (imm : Imm) : Word := pc + 4#32 + (signImm imm <<< 2)

/-- `ea = x[rs] + sext_32(imm)` modulo 2^32 (R72, R123). -/
def effAddr (f : IFields) (s : State) : Word := s.readReg f.rs + signImm f.imm

/-- The count of `sll`, `srl`, `sra`: the shamt field, 0..31 (R72, R91). -/
def immCount (f : RFields) : Nat := f.shamt.toNat

/-- The count of `sllv`, `srlv`, `srav`: `x[rs][4:0]`, 0..31 (R91, D20; UNVERIFIED, log 17). -/
def regCount (f : RFields) (s : State) : Nat := ((s.readReg f.rs).extractLsb' 0 5).toNat

end Sys2Proof.Machine
end

