-- ==== Sys2Proof/Machine/AluImmediate.lean ====
section
/-! DEFINITION. Immediate arithmetic and logic, I-type (43_alu_immediate R107 to R115):
`rt ← f(rs, imm)`. -/

namespace Sys2Proof.Machine

/-- R108: add immediate, trapping on signed overflow (D15, UNVERIFIED, log 15). -/
def execAddi (f : IFields) (s : State) : Result :=
  trapOrWrite f.rt ((s.readReg f.rs).toInt + (signImm f.imm).toInt) s

/-- R109: add immediate modulo 2^32; the immediate is sign-extended (C2). -/
def execAddiu (f : IFields) (s : State) : Result :=
  writeAndRetire f.rt (s.readReg f.rs + signImm f.imm) s

/-- R110: set on less than immediate, signed. -/
def execSlti (f : IFields) (s : State) : Result :=
  writeAndRetire f.rt (bit (ltSigned (s.readReg f.rs) (signImm f.imm))) s

/-- R111: set on less than immediate, unsigned; the immediate is sign-extended first (C2). -/
def execSltiu (f : IFields) (s : State) : Result :=
  writeAndRetire f.rt (bit (ltUnsigned (s.readReg f.rs) (signImm f.imm))) s

/-- R112: and with the zero-extended immediate. -/
def execAndi (f : IFields) (s : State) : Result :=
  writeAndRetire f.rt (s.readReg f.rs &&& zeroImm f.imm) s

/-- R113: or with the zero-extended immediate. -/
def execOri (f : IFields) (s : State) : Result :=
  writeAndRetire f.rt (s.readReg f.rs ||| zeroImm f.imm) s

/-- R114: exclusive or with the zero-extended immediate. -/
def execXori (f : IFields) (s : State) : Result :=
  writeAndRetire f.rt (s.readReg f.rs ^^^ zeroImm f.imm) s

/-- R115: load upper immediate; `rs` ignored. -/
def execLui (f : IFields) (s : State) : Result := writeAndRetire f.rt (upperImm f.imm) s

end Sys2Proof.Machine
end

