-- ==== Sys2Proof/Machine/AluRegister.lean ====
section
/-! DEFINITION. Register arithmetic and logic, R-type (40_alu_register R80 to R90): `rd ← f(rs, rt)`,
`shamt` ignored. -/

namespace Sys2Proof.Machine

/-- R81: add, trapping on signed overflow. -/
def execAdd (f : RFields) (s : State) : Result :=
  trapOrWrite f.rd ((s.readReg f.rs).toInt + (s.readReg f.rt).toInt) s

/-- R82: add modulo 2^32. -/
def execAddu (f : RFields) (s : State) : Result :=
  writeAndRetire f.rd (s.readReg f.rs + s.readReg f.rt) s

/-- R83: subtract, trapping on signed overflow. -/
def execSub (f : RFields) (s : State) : Result :=
  trapOrWrite f.rd ((s.readReg f.rs).toInt - (s.readReg f.rt).toInt) s

/-- R84: subtract modulo 2^32. -/
def execSubu (f : RFields) (s : State) : Result :=
  writeAndRetire f.rd (s.readReg f.rs - s.readReg f.rt) s

/-- R85: bitwise and. -/
def execAnd (f : RFields) (s : State) : Result :=
  writeAndRetire f.rd (s.readReg f.rs &&& s.readReg f.rt) s

/-- R86: bitwise or. -/
def execOr (f : RFields) (s : State) : Result :=
  writeAndRetire f.rd (s.readReg f.rs ||| s.readReg f.rt) s

/-- R87: bitwise exclusive or. -/
def execXor (f : RFields) (s : State) : Result :=
  writeAndRetire f.rd (s.readReg f.rs ^^^ s.readReg f.rt) s

/-- R88: bitwise not-or. -/
def execNor (f : RFields) (s : State) : Result :=
  writeAndRetire f.rd (~~~(s.readReg f.rs ||| s.readReg f.rt)) s

/-- R89: set on less than, signed. -/
def execSlt (f : RFields) (s : State) : Result :=
  writeAndRetire f.rd (bit (ltSigned (s.readReg f.rs) (s.readReg f.rt))) s

/-- R90: set on less than, unsigned. -/
def execSltu (f : RFields) (s : State) : Result :=
  writeAndRetire f.rd (bit (ltUnsigned (s.readReg f.rs) (s.readReg f.rt))) s

end Sys2Proof.Machine
end

