-- ==== Sys2Proof/Machine/Control.lean ====
section
/-! DEFINITION. Branches and jumps (44_control_transfer R116 to R122).  There is no delay slot, and a
target is not checked before its fetch (R116; D9, D11, UNVERIFIED, log 13). -/

namespace Sys2Proof.Machine

/-- Retire at the branch target if `c` holds, else at `pc + 4` (R116). -/
def branchIf (c : Bool) (imm : Imm) (s : State) : Result :=
  if c then retireTo (branchTarget s.pc imm) s else retire s

/-- R117: branch if equal. -/
def execBeq (f : IFields) (s : State) : Result :=
  branchIf (decide (s.readReg f.rs = s.readReg f.rt)) f.imm s

/-- R118: branch if not equal. -/
def execBne (f : IFields) (s : State) : Result :=
  branchIf (decide (s.readReg f.rs ≠ s.readReg f.rt)) f.imm s

/-- R119: branch if less than or equal to zero, signed; `rt` ignored. -/
def execBlez (f : IFields) (s : State) : Result :=
  branchIf (decide ((s.readReg f.rs).toInt ≤ 0)) f.imm s

/-- R120: branch if greater than zero, signed; `rt` ignored. -/
def execBgtz (f : IFields) (s : State) : Result :=
  branchIf (decide (0 < (s.readReg f.rs).toInt)) f.imm s

/-- R121: jump to `x[rs]`; `rt`, `rd`, `shamt` ignored. -/
def execJr (f : RFields) (s : State) : Result := retireTo (s.readReg f.rs) s

/-- R122: jump to `x[rs]`, read before `rd` gets the link `pc + 4` (D10, UNVERIFIED, log 13);
`rt`, `shamt` ignored. -/
def execJalr (f : RFields) (s : State) : Result :=
  retireTo (s.readReg f.rs) (s.writeReg f.rd (s.pc + 4#32))

end Sys2Proof.Machine
end

