-- ==== Sys2Proof/Machine/LoadStore.lean ====
section
/-! DEFINITION. Loads and stores (45_load_store R123 to R131): one addressing mode, big-endian data,
checked for alignment and then for bounds. -/

namespace Sys2Proof.Machine

/-- The byte at `a`, sign-extended (R124). -/
def byteSigned (m : Memory) (a : Nat) : Word := (m.read a).signExtend 32

/-- The byte at `a`, zero-extended (R127). -/
def byteUnsigned (m : Memory) (a : Nat) : Word := (m.read a).setWidth 32

/-- The big-endian halfword at `a`, sign-extended (R125). -/
def halfSigned (m : Memory) (a : Nat) : Word := (m.readHalf a).signExtend 32

/-- The big-endian halfword at `a`, zero-extended (R128). -/
def halfUnsigned (m : Memory) (a : Nat) : Word := (m.readHalf a).setWidth 32

/-- R124: load byte, sign-extended. -/
def execLb (f : IFields) (s : State) : Result :=
  load 1 byteSigned (effAddr f s) f.rt s

/-- R125: load halfword, sign-extended. -/
def execLh (f : IFields) (s : State) : Result :=
  load 2 halfSigned (effAddr f s) f.rt s

/-- R126: load word. -/
def execLw (f : IFields) (s : State) : Result :=
  load 4 Memory.readWord (effAddr f s) f.rt s

/-- R127: load byte, zero-extended. -/
def execLbu (f : IFields) (s : State) : Result :=
  load 1 byteUnsigned (effAddr f s) f.rt s

/-- R128: load halfword, zero-extended. -/
def execLhu (f : IFields) (s : State) : Result :=
  load 2 halfUnsigned (effAddr f s) f.rt s

/-- The low `bits` bits of a stored register, zero-extended: the `sv` of R58. -/
def storedValue (bits : Nat) (v : Word) : Word := (v.setWidth bits).setWidth 32

/-- R129: store byte. -/
def execSb (f : IFields) (s : State) : Result :=
  store 1 Memory.writeByte (effAddr f s) (s.readReg f.rt) (storedValue 8 (s.readReg f.rt)) s

/-- R130: store halfword. -/
def execSh (f : IFields) (s : State) : Result :=
  store 2 Memory.writeHalf (effAddr f s) (s.readReg f.rt) (storedValue 16 (s.readReg f.rt)) s

/-- R131: store word. -/
def execSw (f : IFields) (s : State) : Result :=
  store 4 Memory.writeWord (effAddr f s) (s.readReg f.rt) (storedValue 32 (s.readReg f.rt)) s

end Sys2Proof.Machine
end

