-- ==== Sys2Proof/Machine/MulDiv.lean ====
section
/-! DEFINITION. Multiply, divide and the moves of `hi` and `lo` (42_muldiv R98 to R106). -/

namespace Sys2Proof.Machine

/-- `hi <- h; lo <- l`, and retire. -/
def writeHiLo (h l : Word) (s : State) : Result := retire ((s.setHi h).setLo l)

/-- A 64-bit product: `hi <- p[63:32]; lo <- p[31:0]` (R98; D18, UNVERIFIED, log 16). -/
def writeProduct (p : BitVec 64) (s : State) : Result :=
  writeHiLo (p.extractLsb' 32 32) (p.extractLsb' 0 32) s

/-- Signed division of integers, `(quotient, remainder)` truncated toward zero (R98, R101; D18, D19,
UNVERIFIED, log 16).  A zero divisor gives `(0, 0)` (R98; D17, UNVERIFIED, unsafe, log 5). -/
def divSigned (a b : Int) : Int × Int :=
  if b = 0 then (0, 0) else let q := a.tdiv b; (q, a - q * b)

/-- Unsigned division, `(quotient, remainder)`; a zero divisor gives `(0, 0)`
(R98, R102; D17, UNVERIFIED, unsafe, log 5). -/
def divUnsigned (a b : Nat) : Nat × Nat := if b = 0 then (0, 0) else (a / b, a % b)

/-- R99: multiply signed; `rd`, `shamt` ignored. -/
def execMult (f : RFields) (s : State) : Result :=
  writeProduct (BitVec.ofInt 64 ((s.readReg f.rs).toInt * (s.readReg f.rt).toInt)) s

/-- R100: multiply unsigned; `rd`, `shamt` ignored. -/
def execMultu (f : RFields) (s : State) : Result :=
  writeProduct (BitVec.ofNat 64 ((s.readReg f.rs).toNat * (s.readReg f.rt).toNat)) s

/-- R101: divide signed; `lo` the quotient, `hi` the remainder. -/
def execDiv (f : RFields) (s : State) : Result :=
  let d := divSigned (s.readReg f.rs).toInt (s.readReg f.rt).toInt
  writeHiLo (BitVec.ofInt 32 d.2) (BitVec.ofInt 32 d.1) s

/-- R102: divide unsigned; `lo` the quotient, `hi` the remainder. -/
def execDivu (f : RFields) (s : State) : Result :=
  let d := divUnsigned (s.readReg f.rs).toNat (s.readReg f.rt).toNat
  writeHiLo (BitVec.ofNat 32 d.2) (BitVec.ofNat 32 d.1) s

/-- R103: move from `hi`; `rs`, `rt`, `shamt` ignored. -/
def execMfhi (f : RFields) (s : State) : Result := writeAndRetire f.rd s.hi s

/-- R104: move to `hi`; `rt`, `rd`, `shamt` ignored. -/
def execMthi (f : RFields) (s : State) : Result := retire (s.setHi (s.readReg f.rs))

/-- R105: move from `lo`; `rs`, `rt`, `shamt` ignored. -/
def execMflo (f : RFields) (s : State) : Result := writeAndRetire f.rd s.lo s

/-- R106: move to `lo`; `rt`, `rd`, `shamt` ignored. -/
def execMtlo (f : RFields) (s : State) : Result := retire (s.setLo (s.readReg f.rs))

end Sys2Proof.Machine
end

