-- ==== Sys2Proof/Machine/Shift.lean ====
section
/-! DEFINITION. Shifts (41_shifts R91 to R97): `rd ← rt` shifted by `shamt`, or by `x[rs][4:0]`. -/

namespace Sys2Proof.Machine

/-- R92: shift left logical; `rs` ignored. -/
def execSll (f : RFields) (s : State) : Result :=
  writeAndRetire f.rd (s.readReg f.rt <<< immCount f) s

/-- R93: shift right logical; `rs` ignored. -/
def execSrl (f : RFields) (s : State) : Result :=
  writeAndRetire f.rd (s.readReg f.rt >>> immCount f) s

/-- R94: shift right arithmetic; `rs` ignored. -/
def execSra (f : RFields) (s : State) : Result :=
  writeAndRetire f.rd ((s.readReg f.rt).sshiftRight (immCount f)) s

/-- R95: shift left logical by a register; `shamt` ignored. -/
def execSllv (f : RFields) (s : State) : Result :=
  writeAndRetire f.rd (s.readReg f.rt <<< regCount f s) s

/-- R96: shift right logical by a register; `shamt` ignored. -/
def execSrlv (f : RFields) (s : State) : Result :=
  writeAndRetire f.rd (s.readReg f.rt >>> regCount f s) s

/-- R97: shift right arithmetic by a register; `shamt` ignored. -/
def execSrav (f : RFields) (s : State) : Result :=
  writeAndRetire f.rd ((s.readReg f.rt).sshiftRight (regCount f s)) s

end Sys2Proof.Machine
end

