-- ==== Sys2Proof/Machine/System.lean ====
section
/-! DEFINITION. The system call (46_system R132 to R134), the one non-fatal trap: a synchronous call
into the host inside the step, which saves no state and goes nowhere (60_exceptions R138). -/

namespace Sys2Proof.Machine

/-- R133: draw the host's answer from the registers as they stand, apply it, and retire at `pc + 4`,
also when it halts (D24, UNVERIFIED, log 19).  Every field of the word is ignored (D38, log 14). -/
def execSyscall (_f : RFields) (s : State) : Result :=
  retire (s.drawAnswer.applyAnswer s.hostAnswer)

end Sys2Proof.Machine
end

