-- ==== Sys2Proof/Machine/Fetch.lean ====
section
/-! DEFINITION. The stack check and the fetch of a step (10_state R37, R38; 20_memory R53). -/

namespace Sys2Proof.Machine

/-- The stack check: `u(x[SP_INDEX]) < u(STACK_LIMIT)` (R37; D4, UNVERIFIED, log 9). -/
def State.stackOverflows (s : State) : Bool :=
  decide ((s.readReg spIndex).toNat < s.cfg.stackLimit.toNat)

/-- `Fetch(pc)`: the big-endian word at `pc`, or nothing where `pc` is misaligned or one of the four
bytes is outside memory (R38, R53).  The current memory is read (R62). -/
def State.fetch (s : State) : Option Word :=
  match s.accessFault s.pc 4 with
  | some _ => none
  | none => some (s.mem.readWord s.pc.toNat)

/-- Store the word numbered `w` big-endian at `pc`, if a word can be fetched from there. -/
def State.placeWord (s : State) (w : Nat) : State :=
  match s.accessFault s.pc 4 with
  | some _ => s
  | none => s.setMem (s.mem.writeWord s.pc.toNat (BitVec.ofNat 32 w))

end Sys2Proof.Machine
end

