-- ==== Sys2Proof/Machine/Step.lean ====
section
/-! DEFINITION. The step of the engine (10_state R36 to R41) and where its next instruction stands. -/

namespace Sys2Proof.Machine

/-- One step (R36): a terminal engine stays as it is (R41; D28, UNVERIFIED, log 21); then the stack
check, the fetch, the decode and the execution, the first fault found being the one reported
(R139). -/
def step (s : State) : Host.Outcome State Fault Refusal :=
  match s.run with
  | .running =>
    if s.stackOverflows then raise .stackOverflow s
    else match s.fetch with
      | none => raise .badFetch s
      | some w =>
        match decode s.cfg.lwOpcode w with
        | .error k => raise (.illegalInstruction k) s
        | .ok i => exec i s
  | _ => .next s

/-- `s` with the instruction word whose bits are `w` stored where `step` fetches its next instruction:
big-endian at `pc` (R46, R53).  It stands for the host's program load (R152, log 7).  Where no word
can be fetched from `pc`, nothing is stored. -/
def State.withFetchWord (s : State) (nbits w : Nat) : State := s.placeWord (w % 2 ^ nbits)

end Sys2Proof.Machine
end

