-- ==== Sys2Proof/WellFormed.lean ====
section
/-! DEFINITION. What is checked of terms: the range of the configuration (00_scope R5), the launch
premises (70_reset_and_hazards R152), and the canonical form an assembler emits
(30_encoding R78).

An `Instr` itself needs no check: each field's type has exactly the width the encoding gives it
(R24), and no field value is refused (R71).  `Instr.canonical` is therefore NOT a condition for
executing; it only says which terms an assembler emits. -/

namespace Sys2Proof

/-- `1 <= MEMSIZE <= 2^32` (R5). -/
def Config.wf (c : Config) : Bool := decide (1 ≤ c.memSize) && decide (c.memSize ≤ 2 ^ 32)

/-- The launch premises: the configuration is in range, `LOAD_ADDR` is word-aligned, and a program of
`words` words fits into memory (R152). -/
def Config.launchOk (c : Config) (words : Nat) : Bool :=
  c.wf && decide (c.loadAddr.toNat % 4 = 0) && decide (c.loadAddr.toNat + 4 * words ≤ c.memSize)

/-- Zero the fields a MIPS assembler emits as zero, the ones the instruction's rule ignores
(R71, R78). -/
def Instr.canonize : Instr → Instr
  | .sll f => .sll { f with rs := 0 }
  | .srl f => .srl { f with rs := 0 }
  | .sra f => .sra { f with rs := 0 }
  | .sllv f => .sllv { f with shamt := 0 }
  | .srlv f => .srlv { f with shamt := 0 }
  | .srav f => .srav { f with shamt := 0 }
  | .jr f => .jr { f with rt := 0, rd := 0, shamt := 0 }
  | .jalr f => .jalr { f with rt := 0, shamt := 0 }
  | .syscall _ => .syscall ⟨0, 0, 0, 0⟩
  | .mfhi f => .mfhi { f with rs := 0, rt := 0, shamt := 0 }
  | .mthi f => .mthi { f with rt := 0, rd := 0, shamt := 0 }
  | .mflo f => .mflo { f with rs := 0, rt := 0, shamt := 0 }
  | .mtlo f => .mtlo { f with rt := 0, rd := 0, shamt := 0 }
  | .mult f => .mult { f with rd := 0, shamt := 0 }
  | .multu f => .multu { f with rd := 0, shamt := 0 }
  | .div f => .div { f with rd := 0, shamt := 0 }
  | .divu f => .divu { f with rd := 0, shamt := 0 }
  | .add f => .add { f with shamt := 0 }
  | .addu f => .addu { f with shamt := 0 }
  | .sub f => .sub { f with shamt := 0 }
  | .subu f => .subu { f with shamt := 0 }
  | .and f => .and { f with shamt := 0 }
  | .or f => .or { f with shamt := 0 }
  | .xor f => .xor { f with shamt := 0 }
  | .nor f => .nor { f with shamt := 0 }
  | .slt f => .slt { f with shamt := 0 }
  | .sltu f => .sltu { f with shamt := 0 }
  | .beq f => .beq f
  | .bne f => .bne f
  | .blez f => .blez { f with rt := 0 }
  | .bgtz f => .bgtz { f with rt := 0 }
  | .addi f => .addi f
  | .addiu f => .addiu f
  | .slti f => .slti f
  | .sltiu f => .sltiu f
  | .andi f => .andi f
  | .ori f => .ori f
  | .xori f => .xori f
  | .lui f => .lui { f with rs := 0 }
  | .lb f => .lb f
  | .lh f => .lh f
  | .lw f => .lw f
  | .lbu f => .lbu f
  | .lhu f => .lhu f
  | .sb f => .sb f
  | .sh f => .sh f
  | .sw f => .sw f

/-- The fields R78 lists as "emitted as 0" are zero. -/
def Instr.canonical (i : Instr) : Bool := decide (i.canonize = i)

end Sys2Proof
end

