-- ==== Sys2Proof/Machine/Launch.lean ====
section
/-! DEFINITION. Construction and program load (70_reset_and_hazards R151, R152, R153). -/

namespace Sys2Proof.Machine

/-- Write the words of a program big-endian, one after the other, from `a` up (R152). -/
def Memory.loadWords (m : Memory) (a : Nat) : List Word → Memory
  | [] => m
  | w :: ws => Memory.loadWords (m.writeWord a w) (a + 4) ws

/-- Construct an engine and load its program, or refuse where the launch premises fail (R151, R152;
D29, UNVERIFIED, log 7). -/
def launch (c : Config) (program : List Word) : Option State :=
  if c.launchOk program.length then
    some { State.initial c with mem := Memory.loadWords [] c.loadAddr.toNat program }
  else none

end Sys2Proof.Machine
end

