-- ==== Sys2Proof/Machine/Run.lean ====
section
/-! DEFINITION. `run()`: repeat the step while the engine is `Running` (10_state R42;
60_exceptions R144). -/

namespace Sys2Proof.Machine

/-- `run()` under fuel (D34, UNVERIFIED, log 22): the first state whose run state is not `Running`, or
nothing where the fuel ends first.  Running out of fuel is no state of the engine. -/
def run : Nat → State → Option State
  | 0, s => if s.run = .running then none else some s
  | k + 1, s =>
    if s.run = .running then
      match step s with
      | .next t => run k t
      | _ => none
    else some s

end Sys2Proof.Machine
end

