-- ==== Sys2Proof/Safety.lean ====
section
/-! DEFINITION. The terms the statements use: what is observed of a state, what an instruction is said
to do, which instructions may write which state, and the invariant of a sound engine state. -/

namespace Sys2Proof.Machine

/-! ### What changed, through the model's own reads -/

/-- `x[rd]` holds `v` (or the write was discarded, R21), and every other register is unchanged. -/
def RegsAfter (s t : State) (rd : RegIdx) (v : Word) : Prop :=
  ∀ r, t.readReg r = if r = rd ∧ r ≠ 0#5 then v else s.readReg r

/-- Every register is unchanged. -/
def SameRegs (s t : State) : Prop := ∀ r, t.readReg r = s.readReg r

/-- Both accumulators are unchanged. -/
def SameHiLo (s t : State) : Prop := t.hi = s.hi ∧ t.lo = s.lo

/-- Every byte of memory is unchanged. -/
def SameMem (s t : State) : Prop := ∀ a, t.mem.read a = s.mem.read a

/-- Every byte of memory outside `[a, a + n)` is unchanged. -/
def SameMemOutside (s t : State) (a n : Nat) : Prop :=
  ∀ b, b < a ∨ a + n ≤ b → t.mem.read b = s.mem.read b

/-- The constants of the run and the host's pending answers are unchanged. -/
def SameHost (s t : State) : Prop :=
  t.cfg = s.cfg ∧ t.hostAnswers = s.hostAnswers ∧ t.hostDraws = s.hostDraws

/-- The run state and the output stream are unchanged. -/
def SameRun (s t : State) : Prop := t.run = s.run ∧ t.out = s.out

/-! ### What an instruction does -/

/-- `i` completes at `s`: it writes `v` to `x[rd]`, the pc advances by 4, and nothing else changes. -/
def WritesReg (i : Instr) (s : State) (rd : RegIdx) (v : Word) : Prop :=
  ∃ t, exec i s = .next t ∧ RegsAfter s t rd v ∧ t.pc = s.pc + 4#32 ∧
    SameHiLo s t ∧ SameMem s t ∧ SameRun s t ∧ SameHost s t

/-- `i` completes at `s`: it writes `h` to `hi` and `l` to `lo`, the pc advances by 4, and nothing else
changes. -/
def WritesHiLo (i : Instr) (s : State) (h l : Word) : Prop :=
  ∃ t, exec i s = .next t ∧ t.hi = h ∧ t.lo = l ∧ t.pc = s.pc + 4#32 ∧
    SameRegs s t ∧ SameMem s t ∧ SameRun s t ∧ SameHost s t

/-- `i` completes at `s`: the pc becomes `target`, and nothing else changes. -/
def JumpsTo (i : Instr) (s : State) (target : Word) : Prop :=
  ∃ t, exec i s = .next t ∧ t.pc = target ∧
    SameRegs s t ∧ SameHiLo s t ∧ SameMem s t ∧ SameRun s t ∧ SameHost s t

/-- `t` is `s` with the fault `k` taken: the run state is `Faulted(k, pc)` and nothing else changed. -/
def FaultTaken (s t : State) (k : Fault) : Prop :=
  t.run = .faulted k s.pc ∧ t.pc = s.pc ∧ t.out = s.out ∧
    SameRegs s t ∧ SameHiLo s t ∧ SameMem s t ∧ SameHost s t

/-- `i` takes the fault `k` at `s`. -/
def Traps (i : Instr) (s : State) (k : Fault) : Prop :=
  ∃ t, exec i s = .next t ∧ FaultTaken s t k

/-! ### How an instruction is encoded -/

/-- The R-type word with this func decodes to `mk` of its fields, whatever they are (R65, R69). -/
def EncodedR (func : BitVec 6) (mk : RFields → Instr) : Prop :=
  ∀ (lw : LwOpcode) (rs rt rd : RegIdx) (shamt : BitVec 5),
    decode lw (0#6 ++ rs ++ rt ++ rd ++ shamt ++ func) = .ok (mk ⟨rs, rt, rd, shamt⟩)

/-- The I-type word with this opcode decodes to `mk` of its fields, whatever they are (R66, R69). -/
def EncodedI (op : BitVec 6) (mk : IFields → Instr) : Prop :=
  ∀ (lw : LwOpcode) (rs rt : RegIdx) (imm : Imm),
    decode lw (op ++ rs ++ rt ++ imm) = .ok (mk ⟨rs, rt, imm⟩)

/-! ### Which instructions may write which state -/

/-- The general register an instruction writes (R23), `x[2]` for `syscall`. -/
def destReg : Instr → Option RegIdx
  | .sll f => some f.rd
  | .srl f => some f.rd
  | .sra f => some f.rd
  | .sllv f => some f.rd
  | .srlv f => some f.rd
  | .srav f => some f.rd
  | .jr _ => none
  | .jalr f => some f.rd
  | .syscall _ => some syscallResultReg
  | .mfhi f => some f.rd
  | .mthi _ => none
  | .mflo f => some f.rd
  | .mtlo _ => none
  | .mult _ => none
  | .multu _ => none
  | .div _ => none
  | .divu _ => none
  | .add f => some f.rd
  | .addu f => some f.rd
  | .sub f => some f.rd
  | .subu f => some f.rd
  | .and f => some f.rd
  | .or f => some f.rd
  | .xor f => some f.rd
  | .nor f => some f.rd
  | .slt f => some f.rd
  | .sltu f => some f.rd
  | .beq _ => none
  | .bne _ => none
  | .blez _ => none
  | .bgtz _ => none
  | .addi f => some f.rt
  | .addiu f => some f.rt
  | .slti f => some f.rt
  | .sltiu f => some f.rt
  | .andi f => some f.rt
  | .ori f => some f.rt
  | .xori f => some f.rt
  | .lui f => some f.rt
  | .lb f => some f.rt
  | .lh f => some f.rt
  | .lw f => some f.rt
  | .lbu f => some f.rt
  | .lhu f => some f.rt
  | .sb _ => none
  | .sh _ => none
  | .sw _ => none

/-- The instruction with the destination register of `destReg` replaced by `d`; an instruction whose
encoding names no destination is left as it is. -/
def withDest (d : RegIdx) : Instr → Instr
  | .sll f => .sll { f with rd := d }
  | .srl f => .srl { f with rd := d }
  | .sra f => .sra { f with rd := d }
  | .sllv f => .sllv { f with rd := d }
  | .srlv f => .srlv { f with rd := d }
  | .srav f => .srav { f with rd := d }
  | .jr f => .jr f
  | .jalr f => .jalr { f with rd := d }
  | .syscall f => .syscall f
  | .mfhi f => .mfhi { f with rd := d }
  | .mthi f => .mthi f
  | .mflo f => .mflo { f with rd := d }
  | .mtlo f => .mtlo f
  | .mult f => .mult f
  | .multu f => .multu f
  | .div f => .div f
  | .divu f => .divu f
  | .add f => .add { f with rd := d }
  | .addu f => .addu { f with rd := d }
  | .sub f => .sub { f with rd := d }
  | .subu f => .subu { f with rd := d }
  | .and f => .and { f with rd := d }
  | .or f => .or { f with rd := d }
  | .xor f => .xor { f with rd := d }
  | .nor f => .nor { f with rd := d }
  | .slt f => .slt { f with rd := d }
  | .sltu f => .sltu { f with rd := d }
  | .beq f => .beq f
  | .bne f => .bne f
  | .blez f => .blez f
  | .bgtz f => .bgtz f
  | .addi f => .addi { f with rt := d }
  | .addiu f => .addiu { f with rt := d }
  | .slti f => .slti { f with rt := d }
  | .sltiu f => .sltiu { f with rt := d }
  | .andi f => .andi { f with rt := d }
  | .ori f => .ori { f with rt := d }
  | .xori f => .xori { f with rt := d }
  | .lui f => .lui { f with rt := d }
  | .lb f => .lb { f with rt := d }
  | .lh f => .lh { f with rt := d }
  | .lw f => .lw { f with rt := d }
  | .lbu f => .lbu { f with rt := d }
  | .lhu f => .lhu { f with rt := d }
  | .sb f => .sb f
  | .sh f => .sh f
  | .sw f => .sw f

/-- The bytes a store instruction stores to: effective address, width, and the `sv` of R58. -/
def storeOf (s : State) : Instr → Option (Word × Nat × Word)
  | .sb f => some (effAddr f s, 1, storedValue 8 (s.readReg f.rt))
  | .sh f => some (effAddr f s, 2, storedValue 16 (s.readReg f.rt))
  | .sw f => some (effAddr f s, 4, storedValue 32 (s.readReg f.rt))
  | _ => none

/-- `mult`, `multu`, `div`, `divu`, `mthi`: the instructions that write `hi` (R25). -/
def writesHi : Instr → Bool
  | .mult _ | .multu _ | .div _ | .divu _ | .mthi _ => true
  | _ => false

/-- `mult`, `multu`, `div`, `divu`, `mtlo`: the instructions that write `lo` (R25). -/
def writesLo : Instr → Bool
  | .mult _ | .multu _ | .div _ | .divu _ | .mtlo _ => true
  | _ => false

/-- The instruction is the `syscall`. -/
def isSyscall : Instr → Bool
  | .syscall _ => true
  | _ => false

/-- The instructions that may redirect the pc (R28): branches, `jr`, `jalr`. -/
def redirectsPc : Instr → Bool
  | .beq _ | .bne _ | .blez _ | .bgtz _ | .jr _ | .jalr _ => true
  | _ => false

/-- The fault kinds an instruction's own rule may raise (R135). -/
def mayRaise : Instr → Fault → Bool
  | .add _, .arithmeticFault | .sub _, .arithmeticFault | .addi _, .arithmeticFault => true
  | .lb _, .memoryFault .outOfBounds | .lbu _, .memoryFault .outOfBounds => true
  | .sb _, .memoryFault .outOfBounds => true
  | .lh _, .memoryFault _ | .lhu _, .memoryFault _ | .lw _, .memoryFault _ => true
  | .sh _, .memoryFault _ | .sw _, .memoryFault _ => true
  | _, _ => false

/-! ### The invariant -/

/-- The pc a fault recorded is the pc of the engine, which no longer changes (R136, R137, R41). -/
def RunState.agreesWith : RunState → Word → Bool
  | .faulted _ fpc, pc => decide (fpc = pc)
  | _, _ => true

/-- A sound engine state: the configuration is in range (R5), memory is in its canonical form and
lies inside `[0, MEMSIZE)` (R43), `x[0]` is stored as zero (R21, R36), nothing is on the output
stream without a watch (R33), and a recorded fault agrees with the pc (R136). -/
structure State.Inv (s : State) : Prop where
  cfgInRange   : s.cfg.wf = true
  memCanonical : s.mem.wf = true
  memInside    : ∀ c ∈ s.mem, c.1 < s.cfg.memSize
  zeroReg      : s.regs[0] = 0#32
  outWatched   : s.cfg.mmioWatch = none → s.out = []
  faultPc      : s.run.agreesWith s.pc = true

end Sys2Proof.Machine
end

