-- ==== Sys2Proof/Certificates/Slice0/Obligations.lean ====
section
/-! DEFINITION. The statements for the provers.  Each docstring names the rule of spec/ it formalises;
where a clause rests on a decision the spec marks as its own (D<n>) or on a choice of the model
(log <n>), the docstring says so, and the statement's basis is 'derived'. -/

open Sys2Proof Sys2Proof.Machine

/-! ### Encoding -/

/-- Decoding an encoded instruction gives it back, for every instruction, every operand and both values
of `LW_OPCODE` (30_encoding section 2; D12, D12a). -/
def Obligations.DecodeOfEncodeIsIdentity : Prop :=
  ∀ (lw : LwOpcode) (i : Instr), decode lw (encode lw i) = .ok i

/-- R70: every word that decodes is the encoding of what it decodes to, and the encoding is the
concatenation of the raw fields. -/
def Obligations.EncodeOfDecodeIsIdentity : Prop :=
  (∀ (lw : LwOpcode) (w : Word) (i : Instr), decode lw w = .ok i → encode lw i = w) ∧
  (∀ (lw : LwOpcode) (i : Instr) (f : RFields) (func : BitVec 6), i.raw lw = .r f func →
    encode lw i = 0#6 ++ f.rs ++ f.rt ++ f.rd ++ f.shamt ++ func) ∧
  (∀ (lw : LwOpcode) (i : Instr) (op : BitVec 6) (f : IFields), i.raw lw = .i op f →
    encode lw i = op ++ f.rs ++ f.rt ++ f.imm)

/-- Which words are illegal, and with which decode fault (30_encoding sections 2 to 4; D12, D12a,
D14). -/
def Obligations.IllegalWordsAreExactlyTheUnlisted : Prop :=
  ∀ (lw : LwOpcode) (w : Word),
    (decode lw w = .error .unknownFunction ↔
      w.extractLsb' 26 6 = 0#6 ∧ (w.extractLsb' 0 6).toNat ∉
        [0, 2, 3, 4, 6, 7, 8, 9, 12, 16, 17, 18, 19, 24, 25, 26, 27, 32, 33, 34, 35, 36, 37, 38, 39,
          42, 43]) ∧
    (decode lw w = .error .unknownOpcode ↔
      w.extractLsb' 26 6 ≠ 0#6 ∧ w.extractLsb' 26 6 ≠ lw.code ∧ (w.extractLsb' 26 6).toNat ∉
        [4, 5, 6, 7, 8, 9, 10, 11, 12, 13, 14, 15, 32, 33, 36, 37, 40, 41, 43])

/-- One word of each family, with the instruction the spec's examples say it is (95_test_vectors). -/
def Obligations.ExampleWordsDecode : Prop :=
  decode .mips32 0x00221820#32 = .ok (.add ⟨1, 2, 3, 0⟩) ∧
  decode .mips32 0x00021FC3#32 = .ok (.sra ⟨0, 2, 3, 31⟩) ∧
  decode .mips32 0x0022F818#32 = .ok (.mult ⟨1, 2, 31, 0⟩) ∧
  decode .mips32 0x2822FFFF#32 = .ok (.slti ⟨1, 2, 0xFFFF⟩) ∧
  decode .mips32 0x1422FFFE#32 = .ok (.bne ⟨1, 2, 0xFFFE⟩) ∧
  decode .mips32 0x0320F809#32 = .ok (.jalr ⟨25, 0, 31, 0⟩) ∧
  decode .mips32 0x8C010001#32 = .ok (.lw ⟨0, 1, 1⟩) ∧
  decode .mips32 0xA4220002#32 = .ok (.sh ⟨1, 2, 2⟩) ∧
  decode .mips32 0x03FFFFCC#32 = .ok (.syscall ⟨31, 31, 31, 31⟩) ∧
  decode .mips32 0x08000000#32 = .error .unknownOpcode ∧
  decode .mips32 0x0000000D#32 = .error .unknownFunction

/-- Fields an instruction does not use have no effect: it executes as if they were zero
(30_encoding section 2; D13, D38). -/
def Obligations.IgnoredFieldsHaveNoEffect : Prop :=
  ∀ (i : Instr) (s : State), exec i s = exec i.canonize s

/-! ### The step -/

/-- A running engine whose stack check and fetch succeed executes the instruction that the four bytes at
the pc decode to, and adds nothing around it (10_state section 6). -/
def Obligations.StepRunsTheDecodedInstruction : Prop :=
  ∀ (s : State) (i : Instr), s.run = .running →
    s.cfg.stackLimit.toNat ≤ (s.readReg 29#5).toNat →
    s.pc.toNat % 4 = 0 → s.pc.toNat + 4 ≤ s.cfg.memSize →
    decode s.cfg.lwOpcode (s.mem.read s.pc.toNat ++ s.mem.read (s.pc.toNat + 1) ++
      s.mem.read (s.pc.toNat + 2) ++ s.mem.read (s.pc.toNat + 3)) = .ok i →
    step s = exec i s

/-- The whole step, phase by phase, each phase reached only when the earlier ones passed (10_state
section 6; that `sp` is `x[29]` and its check unsigned is D3, D4, log 9; that a
terminal engine stays as it is is D28, log 21). -/
def Obligations.StepFollowsTheProtocol : Prop :=
  ∀ (s : State),
    let w : Word := s.mem.read s.pc.toNat ++ s.mem.read (s.pc.toNat + 1) ++
      s.mem.read (s.pc.toNat + 2) ++ s.mem.read (s.pc.toNat + 3)
    (s.run ≠ .running → step s = .next s) ∧
    (s.run = .running → (s.readReg 29#5).toNat < s.cfg.stackLimit.toNat →
      ∃ t, step s = .next t ∧ FaultTaken s t .stackOverflow) ∧
    (s.run = .running → s.cfg.stackLimit.toNat ≤ (s.readReg 29#5).toNat →
      (s.pc.extractLsb' 0 2 ≠ 0#2 ∨ s.cfg.memSize < s.pc.toNat + 4) →
      ∃ t, step s = .next t ∧ FaultTaken s t .badFetch) ∧
    (s.run = .running → s.cfg.stackLimit.toNat ≤ (s.readReg 29#5).toNat →
      s.pc.extractLsb' 0 2 = 0#2 → s.pc.toNat + 4 ≤ s.cfg.memSize →
      (∀ k, decode s.cfg.lwOpcode w = .error k →
        ∃ t, step s = .next t ∧ FaultTaken s t (.illegalInstruction k)) ∧
      (∀ i, decode s.cfg.lwOpcode w = .ok i → step s = exec i s))

/-- R53: a fetch is the big-endian read of four bytes, and there is none where the pc is misaligned or a
byte lies outside memory. -/
def Obligations.FetchReadsTheBigEndianWord : Prop :=
  ∀ (s : State),
    (∀ w, s.fetch = some w ↔
      s.pc.toNat % 4 = 0 ∧ s.pc.toNat + 4 ≤ s.cfg.memSize ∧
      ∀ k, k < 4 → w.extractLsb' (24 - 8 * k) 8 = s.mem.read (s.pc.toNat + k)) ∧
    (s.run = .running → s.cfg.stackLimit.toNat ≤ (s.readReg 29#5).toNat →
      (s.pc.toNat % 4 ≠ 0 ∨ s.cfg.memSize < s.pc.toNat + 4) →
      ∃ t, step s = .next t ∧ FaultTaken s t .badFetch)

/-- Faults are precise and terminal: a fault changes nothing but the run state (60_exceptions section 2,
R137); that a further step of the faulted engine answers the same state is decision D28, log 21. -/
def Obligations.FaultsArePreciseAndTerminal : Prop :=
  ∀ (s t : State) (k : Fault) (fpc : Word), s.run = .running → step s = .next t →
    t.run = .faulted k fpc →
    fpc = s.pc ∧ t = { s with run := .faulted k s.pc } ∧ step t = .next t

/-- No state stops the engine: every step answers a next state, never a fault or a refusal outcome
(10_state section 6; that a fault is a next state is the model's choice of form, log 4). -/
def Obligations.EveryStepAnswersANextState : Prop :=
  ∀ (s : State), ∃ t, step s = .next t

/-- A halted or faulted engine no longer changes (10_state section 6, R41; D28, log 21). -/
def Obligations.TerminalStatesStay : Prop :=
  ∀ (s : State), s.run ≠ .running → step s = .next s ∧ ∀ k, run k s = some s

/-- `run()` under fuel ends only in a terminal state, and more fuel gives the same one
(10_state section 6, 60_exceptions section 4; D34, log 22; the clause on a further step is D28,
log 21). -/
def Obligations.RunEndsInATerminalState : Prop :=
  ∀ (k : Nat) (s t : State), run k s = some t →
    t.run ≠ .running ∧ step t = .next t ∧ ∀ j, run (k + j) s = some t

/-- Only the instructions of the fault table raise its execution faults, and each only its own kinds
(60_exceptions section 1; D15). -/
def Obligations.InstructionsRaiseOnlyTheirFaults : Prop :=
  ∀ (i : Instr) (s t : State) (k : Fault) (fpc : Word), s.run = .running → exec i s = .next t →
    t.run = .faulted k fpc → mayRaise i k = true ∧ fpc = s.pc

/-- The engine becomes `Halted` in exactly two ways, and each retires with `pc + 4`
(60_exceptions section 4; D24, D26). -/
def Obligations.HaltsInExactlyTwoWays : Prop :=
  ∀ (i : Instr) (s t : State), s.run = .running → exec i s = .next t →
    (t.run = .halted ↔
      (isSyscall i = true ∧ s.hostAnswer = .halt) ∨
      (∃ m ea n, s.cfg.mmioWatch = some m ∧ storeOf s i = some (ea, n, 1#32) ∧
        s.accessFault ea n = none ∧ ea = m.haltAddr)) ∧
    (t.run = .halted → t.pc = s.pc + 4#32)

/-! ### Whole-machine rules -/

/-- Every step keeps the invariant: the configuration in range, memory canonical and inside
`[0, MEMSIZE)`, `x[0]` stored as zero, no output without a watch, and a recorded fault's pc
(00_scope R5, 10_state R21, R33, 20_memory R43, 60_exceptions R136; the storage form is the
model's, logs 24 and 25). -/
def Obligations.EveryStepKeepsTheInvariant : Prop :=
  ∀ (s t : State), s.Inv → step s = .next t → t.Inv

/-- The state after reset meets the invariant (log 1). -/
def Obligations.ResetMeetsTheInvariant : Prop := State.reset.Inv

/-- Every engine that can be launched meets the invariant, and so does every state it reaches, whatever
the host has settled to answer (70_reset_and_hazards section 1; D29, log 7; the settled answers are the
model's field, log 2, and the stored forms of memory and `x[0]` are the model's, logs 24 and 25). -/
def Obligations.ReachableStatesMeetTheInvariant : Prop :=
  ∀ (c : Config) (program : List Word) (answers : List SyscallAnswer) (s t : State) (k : Nat),
    launch c program = some s → core.run k { s with hostAnswers := answers } = .next t →
    State.Inv t

/-- No step changes the constants of the run (10_state section 4). -/
def Obligations.NoStepChangesTheConfiguration : Prop :=
  ∀ (s t : State), step s = .next t → t.cfg = s.cfg

/-- Only `sb`, `sh` and `sw` change memory, and each only the bytes of its own access
(20_memory sections 1 and 5). -/
def Obligations.OnlyStoresChangeMemory : Prop :=
  ∀ (i : Instr) (s t : State), exec i s = .next t →
    (storeOf s i = none → t.mem = s.mem) ∧
    (∀ ea n sv, storeOf s i = some (ea, n, sv) → s.mem.wf = true →
      SameMemOutside s t ea.toNat n)

/-- Only the multiply and divide instructions and `mthi`, `mtlo` write the accumulators
(10_state section 2). -/
def Obligations.OnlyTheirInstructionsWriteHiLo : Prop :=
  ∀ (i : Instr) (s t : State), exec i s = .next t →
    (writesHi i = false → t.hi = s.hi) ∧ (writesLo i = false → t.lo = s.lo)

/-- An instruction changes no general register but its destination (10_state section 1; the
destination of `syscall` is D22). -/
def Obligations.OnlyTheDestinationRegisterChanges : Prop :=
  ∀ (i : Instr) (s t : State) (r : RegIdx), exec i s = .next t →
    destReg i ≠ some r → t.readReg r = s.readReg r

/-- R21: `x[0]` reads 0, and an instruction that writes it does everything else as if the write had gone
to any other register `d`. -/
def Obligations.WritesToRegisterZeroAreDiscarded : Prop :=
  (∀ (s : State), s.readReg 0#5 = 0#32) ∧
  (∀ (i : Instr) (s t t' : State) (d : RegIdx), destReg i = some 0#5 → exec i s = .next t →
    exec (withDest d i) s = .next t' →
    SameRegs s t ∧ t.pc = t'.pc ∧ t.hi = t'.hi ∧ t.lo = t'.lo ∧ t.mem = t'.mem ∧
    t.run = t'.run ∧ t.out = t'.out ∧ SameHost t' t)

/-- An instruction that is no branch and no jump leaves the pc at `pc + 4`, or faults and leaves it
where it was (10_state section 3; D24). -/
def Obligations.ThePcAdvancesByFour : Prop :=
  ∀ (i : Instr) (s t : State), redirectsPc i = false → exec i s = .next t →
    t.pc = s.pc + 4#32 ∨ (∃ k, mayRaise i k = true ∧ FaultTaken s t k)

/-- Only a retiring store to `OUT_ADDR` extends the output stream, by the low byte it stored
(20_memory section 7, 10_state section 5; D26). -/
def Obligations.OnlyWatchedStoresEmitOutput : Prop :=
  ∀ (i : Instr) (s t : State), exec i s = .next t →
    t.out = s.out ∨
    (∃ m ea n sv, s.cfg.mmioWatch = some m ∧ storeOf s i = some (ea, n, sv) ∧ ea = m.outAddr ∧
      s.accessFault ea n = none ∧ t.out = s.out ++ [sv.extractLsb' 0 8])

/-! ### Register arithmetic and logic -/

/-- R81, R83: `add` and `sub` write the exact result where it is in the signed 32-bit range, and trap
exactly where it is not. -/
def Obligations.AddSubTrapExactlyOnSignedOverflow : Prop :=
  EncodedR 0x20#6 .add ∧ EncodedR 0x22#6 .sub ∧
  ∀ (f : RFields) (s : State),
    let a := (s.readReg f.rs).toInt
    let b := (s.readReg f.rt).toInt
    (-2 ^ 31 ≤ a + b → a + b ≤ 2 ^ 31 - 1 →
      ∃ v, WritesReg (.add f) s f.rd v ∧ v.toInt = a + b) ∧
    (a + b < -2 ^ 31 ∨ 2 ^ 31 - 1 < a + b → Traps (.add f) s .arithmeticFault) ∧
    (-2 ^ 31 ≤ a - b → a - b ≤ 2 ^ 31 - 1 →
      ∃ v, WritesReg (.sub f) s f.rd v ∧ v.toInt = a - b) ∧
    (a - b < -2 ^ 31 ∨ 2 ^ 31 - 1 < a - b → Traps (.sub f) s .arithmeticFault)

/-- R82, R84: `addu` and `subu` wrap modulo 2^32 and never fault. -/
def Obligations.AdduSubuWrap : Prop :=
  EncodedR 0x21#6 .addu ∧ EncodedR 0x23#6 .subu ∧
  ∀ (f : RFields) (s : State),
    let a := s.readReg f.rs
    let b := s.readReg f.rt
    (∃ v, WritesReg (.addu f) s f.rd v ∧ v.toNat = (a.toNat + b.toNat) % 2 ^ 32) ∧
    (∃ v, WritesReg (.subu f) s f.rd v ∧ v.toNat = (a.toNat + (2 ^ 32 - b.toNat)) % 2 ^ 32)

/-- R85, R86, R87, R88: `and`, `or`, `xor` and `nor`, bit by bit. -/
def Obligations.LogicWorksBitByBit : Prop :=
  EncodedR 0x24#6 .and ∧ EncodedR 0x25#6 .or ∧ EncodedR 0x26#6 .xor ∧ EncodedR 0x27#6 .nor ∧
  ∀ (f : RFields) (s : State),
    let a := s.readReg f.rs
    let b := s.readReg f.rt
    (∃ v, WritesReg (.and f) s f.rd v ∧
      ∀ k, k < 32 → v.getLsbD k = (a.getLsbD k && b.getLsbD k)) ∧
    (∃ v, WritesReg (.or f) s f.rd v ∧
      ∀ k, k < 32 → v.getLsbD k = (a.getLsbD k || b.getLsbD k)) ∧
    (∃ v, WritesReg (.xor f) s f.rd v ∧
      ∀ k, k < 32 → v.getLsbD k = (a.getLsbD k ^^ b.getLsbD k)) ∧
    (∃ v, WritesReg (.nor f) s f.rd v ∧
      ∀ k, k < 32 → v.getLsbD k = !(a.getLsbD k || b.getLsbD k))

/-- `slt` compares signed and `sltu` unsigned, and both write 0 or 1 (40_alu_register; the signedness is
decision D21, log 18). -/
def Obligations.SltSltuWriteTheComparison : Prop :=
  EncodedR 0x2A#6 .slt ∧ EncodedR 0x2B#6 .sltu ∧
  ∀ (f : RFields) (s : State),
    let a := s.readReg f.rs
    let b := s.readReg f.rt
    (a.toInt < b.toInt → WritesReg (.slt f) s f.rd 1#32) ∧
    (b.toInt ≤ a.toInt → WritesReg (.slt f) s f.rd 0#32) ∧
    (a.toNat < b.toNat → WritesReg (.sltu f) s f.rd 1#32) ∧
    (b.toNat ≤ a.toNat → WritesReg (.sltu f) s f.rd 0#32)

/-! ### Shifts -/

/-- R92, R93, R94: `sll` multiplies by `2^shamt` modulo 2^32, `srl` divides the unsigned and `sra` the
signed value by `2^shamt`, rounding down. -/
def Obligations.ImmediateShiftsScaleByPowersOfTwo : Prop :=
  EncodedR 0x00#6 .sll ∧ EncodedR 0x02#6 .srl ∧ EncodedR 0x03#6 .sra ∧
  ∀ (f : RFields) (s : State),
    let x := s.readReg f.rt
    (∃ v, WritesReg (.sll f) s f.rd v ∧ v.toNat = x.toNat * 2 ^ f.shamt.toNat % 2 ^ 32) ∧
    (∃ v, WritesReg (.srl f) s f.rd v ∧ v.toNat = x.toNat / 2 ^ f.shamt.toNat) ∧
    (∃ v, WritesReg (.sra f) s f.rd v ∧ v.toInt = x.toInt / 2 ^ f.shamt.toNat)

/-- The variable shifts do the same with the count `x[rs] mod 32` (41_shifts; the reduction of the count
is decision D20, log 17). -/
def Obligations.VariableShiftsUseTheCountModuloThirtyTwo : Prop :=
  EncodedR 0x04#6 .sllv ∧ EncodedR 0x06#6 .srlv ∧ EncodedR 0x07#6 .srav ∧
  ∀ (f : RFields) (s : State),
    let x := s.readReg f.rt
    let n := (s.readReg f.rs).toNat % 32
    (∃ v, WritesReg (.sllv f) s f.rd v ∧ v.toNat = x.toNat * 2 ^ n % 2 ^ 32) ∧
    (∃ v, WritesReg (.srlv f) s f.rd v ∧ v.toNat = x.toNat / 2 ^ n) ∧
    (∃ v, WritesReg (.srav f) s f.rd v ∧ v.toInt = x.toInt / 2 ^ n)

/-! ### Multiply, divide, hi and lo -/

/-- `mult` and `multu` leave the exact 64-bit product in `hi` and `lo` (42_muldiv; the placement is
decision D18, log 16). -/
def Obligations.MultiplyLeavesTheExactProduct : Prop :=
  EncodedR 0x18#6 .mult ∧ EncodedR 0x19#6 .multu ∧
  ∀ (f : RFields) (s : State),
    let a := s.readReg f.rs
    let b := s.readReg f.rt
    (∃ h l : Word, WritesHiLo (.mult f) s h l ∧ (h ++ l).toInt = a.toInt * b.toInt) ∧
    (∃ h l : Word, WritesHiLo (.multu f) s h l ∧ (h ++ l).toNat = a.toNat * b.toNat)

/-- `div` leaves the quotient in `lo` and the remainder in `hi`, truncated toward zero, exact but for the
one quotient 2^31 that does not fit; a zero divisor is no fault and leaves zeros (42_muldiv; D17,
the spec's own choice of 0, log 5; D18, D19, log 16). -/
def Obligations.SignedDivisionTruncatesTowardZero : Prop :=
  EncodedR 0x1A#6 .div ∧
  ∀ (f : RFields) (s : State),
    let a := (s.readReg f.rs).toInt
    let b := (s.readReg f.rt).toInt
    (b ≠ 0 → ¬ (a = -2 ^ 31 ∧ b = -1) →
      ∃ h l : Word, WritesHiLo (.div f) s h l ∧ a = l.toInt * b + h.toInt ∧
        h.toInt.natAbs < b.natAbs ∧ (0 ≤ a → 0 ≤ h.toInt) ∧ (a ≤ 0 → h.toInt ≤ 0)) ∧
    (a = -2 ^ 31 → b = -1 → WritesHiLo (.div f) s 0#32 0x80000000#32) ∧
    (b = 0 → WritesHiLo (.div f) s 0#32 0#32)

/-- `divu` leaves the quotient in `lo` and the remainder in `hi`; a zero divisor is no fault and leaves
zeros (42_muldiv; D17, the spec's own choice of 0, log 5; D18, log 16). -/
def Obligations.UnsignedDivisionIsExact : Prop :=
  EncodedR 0x1B#6 .divu ∧
  ∀ (f : RFields) (s : State),
    let a := (s.readReg f.rs).toNat
    let b := (s.readReg f.rt).toNat
    (b ≠ 0 → ∃ h l : Word, WritesHiLo (.divu f) s h l ∧
      a = l.toNat * b + h.toNat ∧ h.toNat < b) ∧
    (b = 0 → WritesHiLo (.divu f) s 0#32 0#32)

/-- The moves of `hi` and `lo` (42_muldiv; the field roles are decision D36, log 8). -/
def Obligations.HiLoMovesCopyTheRegister : Prop :=
  EncodedR 0x10#6 .mfhi ∧ EncodedR 0x11#6 .mthi ∧ EncodedR 0x12#6 .mflo ∧ EncodedR 0x13#6 .mtlo ∧
  ∀ (f : RFields) (s : State),
    WritesReg (.mfhi f) s f.rd s.hi ∧ WritesReg (.mflo f) s f.rd s.lo ∧
    WritesHiLo (.mthi f) s (s.readReg f.rs) s.lo ∧ WritesHiLo (.mtlo f) s s.hi (s.readReg f.rs)

/-! ### Immediate arithmetic and logic -/

/-- `addi` writes the exact sum with the sign-extended immediate, and traps exactly where the sum leaves
the signed range (43_alu_immediate; that it traps is decision D15, log 15). -/
def Obligations.AddiTrapsExactlyOnSignedOverflow : Prop :=
  EncodedI 8#6 .addi ∧
  ∀ (f : IFields) (s : State),
    let t := (s.readReg f.rs).toInt + f.imm.toInt
    (-2 ^ 31 ≤ t → t ≤ 2 ^ 31 - 1 → ∃ v, WritesReg (.addi f) s f.rt v ∧ v.toInt = t) ∧
    (t < -2 ^ 31 ∨ 2 ^ 31 - 1 < t → Traps (.addi f) s .arithmeticFault)

/-- `addiu`, `slti` and `sltiu` use the sign-extended immediate: `addiu` adds it modulo 2^32, `slti`
compares signed, `sltiu` compares both as unsigned (43_alu_immediate; D15, D16, D21, log 15,
log 18). -/
def Obligations.AddiuSltiSltiuSignExtend : Prop :=
  EncodedI 9#6 .addiu ∧ EncodedI 10#6 .slti ∧ EncodedI 11#6 .sltiu ∧
  ∀ (f : IFields) (s : State),
    let a := s.readReg f.rs
    (∃ v, WritesReg (.addiu f) s f.rt v ∧ (v.toNat : Int) = (a.toNat + f.imm.toInt) % 2 ^ 32) ∧
    (a.toInt < f.imm.toInt → WritesReg (.slti f) s f.rt 1#32) ∧
    (f.imm.toInt ≤ a.toInt → WritesReg (.slti f) s f.rt 0#32) ∧
    ((a.toNat : Int) < f.imm.toInt % 2 ^ 32 → WritesReg (.sltiu f) s f.rt 1#32) ∧
    (f.imm.toInt % 2 ^ 32 ≤ a.toNat → WritesReg (.sltiu f) s f.rt 0#32)

/-- R112, R113, R114: `andi`, `ori` and `xori` zero-extend the immediate, so that bits 31..16 of it are
zero. -/
def Obligations.LogicalImmediatesZeroExtend : Prop :=
  EncodedI 12#6 .andi ∧ EncodedI 13#6 .ori ∧ EncodedI 14#6 .xori ∧
  ∀ (f : IFields) (s : State),
    let a := s.readReg f.rs
    (∃ v, WritesReg (.andi f) s f.rt v ∧
      (∀ k, k < 16 → v.getLsbD k = (a.getLsbD k && f.imm.getLsbD k)) ∧
      (∀ k, 16 ≤ k → v.getLsbD k = false)) ∧
    (∃ v, WritesReg (.ori f) s f.rt v ∧
      (∀ k, k < 16 → v.getLsbD k = (a.getLsbD k || f.imm.getLsbD k)) ∧
      (∀ k, 16 ≤ k → v.getLsbD k = a.getLsbD k)) ∧
    (∃ v, WritesReg (.xori f) s f.rt v ∧
      (∀ k, k < 16 → v.getLsbD k = (a.getLsbD k ^^ f.imm.getLsbD k)) ∧
      (∀ k, 16 ≤ k → v.getLsbD k = a.getLsbD k))

/-- R115: `lui` puts the immediate in the upper half and zeros in the lower. -/
def Obligations.LuiLoadsTheUpperHalf : Prop :=
  EncodedI 15#6 .lui ∧
  ∀ (f : IFields) (s : State),
    ∃ v, WritesReg (.lui f) s f.rt v ∧ v.toNat = f.imm.toNat * 2 ^ 16

/-! ### Branches and jumps -/

/-- R117, R118: `beq` and `bne` go to `pc + 4 + 4 * imm` modulo 2^32 when their condition holds, and to
`pc + 4` when it does not. -/
def Obligations.BeqBneBranchOnEquality : Prop :=
  EncodedI 4#6 .beq ∧ EncodedI 5#6 .bne ∧
  ∀ (f : IFields) (s : State),
    let target := BitVec.ofInt 32 (s.pc.toNat + 4 + 4 * f.imm.toInt)
    (s.readReg f.rs = s.readReg f.rt → JumpsTo (.beq f) s target) ∧
    (s.readReg f.rs ≠ s.readReg f.rt → JumpsTo (.beq f) s (s.pc + 4#32)) ∧
    (s.readReg f.rs ≠ s.readReg f.rt → JumpsTo (.bne f) s target) ∧
    (s.readReg f.rs = s.readReg f.rt → JumpsTo (.bne f) s (s.pc + 4#32))

/-- `blez` and `bgtz` compare the signed register with zero (44_control_transfer; the signedness is
decision D21, log 18). -/
def Obligations.BlezBgtzBranchOnSign : Prop :=
  EncodedI 6#6 .blez ∧ EncodedI 7#6 .bgtz ∧
  ∀ (f : IFields) (s : State),
    let a := (s.readReg f.rs).toInt
    let target := BitVec.ofInt 32 (s.pc.toNat + 4 + 4 * f.imm.toInt)
    (a ≤ 0 → JumpsTo (.blez f) s target) ∧ (0 < a → JumpsTo (.blez f) s (s.pc + 4#32)) ∧
    (0 < a → JumpsTo (.bgtz f) s target) ∧ (a ≤ 0 → JumpsTo (.bgtz f) s (s.pc + 4#32))

/-- `jr` goes to `x[rs]` unchecked; `jalr` does too, to the old `x[rs]`, and links `pc + 4` in `rd`
(44_control_transfer; D10, D11, log 13). -/
def Obligations.JumpsGoToTheRegisterAndLink : Prop :=
  EncodedR 0x08#6 .jr ∧ EncodedR 0x09#6 .jalr ∧
  ∀ (f : RFields) (s : State),
    JumpsTo (.jr f) s (s.readReg f.rs) ∧
    ∃ t, exec (.jalr f) s = .next t ∧ t.pc = s.readReg f.rs ∧ RegsAfter s t f.rd (s.pc + 4#32) ∧
      SameHiLo s t ∧ SameMem s t ∧ SameRun s t ∧ SameHost s t

/-! ### Loads and stores -/

/-- The effective address is `x[rs]` plus the signed offset, modulo 2^32 (45_load_store; D8, log 12). -/
def Obligations.EffectiveAddressWraps : Prop :=
  ∀ (f : IFields) (s : State),
    ((effAddr f s).toNat : Int) = ((s.readReg f.rs).toNat + f.imm.toInt) % 2 ^ 32

/-- R124, R127: `lb` sign-extends and `lbu` zero-extends the byte at the effective address; outside
memory both take `MemoryFault(OutOfBounds)`. -/
def Obligations.ByteLoadsExtendTheByte : Prop :=
  EncodedI 32#6 .lb ∧ EncodedI 36#6 .lbu ∧
  ∀ (f : IFields) (s : State),
    let ea := (effAddr f s).toNat
    (ea < s.cfg.memSize →
      (∃ v, WritesReg (.lb f) s f.rt v ∧ v.toInt = (s.mem.read ea).toInt) ∧
      (∃ v, WritesReg (.lbu f) s f.rt v ∧ v.toNat = (s.mem.read ea).toNat)) ∧
    (s.cfg.memSize ≤ ea →
      Traps (.lb f) s (.memoryFault .outOfBounds) ∧
      Traps (.lbu f) s (.memoryFault .outOfBounds))

/-- `lh` sign-extends and `lhu` zero-extends the big-endian halfword at an even effective address; an odd
one is `Misaligned`, an even one outside memory `OutOfBounds` (45_load_store; D5, D6, D7, logs 10 and
11). -/
def Obligations.HalfwordLoadsExtendTheHalfword : Prop :=
  EncodedI 33#6 .lh ∧ EncodedI 37#6 .lhu ∧
  ∀ (f : IFields) (s : State),
    let ea := (effAddr f s).toNat
    let h : Half := s.mem.read ea ++ s.mem.read (ea + 1)
    (ea % 2 = 0 → ea + 2 ≤ s.cfg.memSize →
      (∃ v, WritesReg (.lh f) s f.rt v ∧ v.toInt = h.toInt) ∧
      (∃ v, WritesReg (.lhu f) s f.rt v ∧ v.toNat = h.toNat)) ∧
    (ea % 2 = 1 →
      Traps (.lh f) s (.memoryFault .misaligned) ∧ Traps (.lhu f) s (.memoryFault .misaligned)) ∧
    (ea % 2 = 0 → s.cfg.memSize < ea + 2 →
      Traps (.lh f) s (.memoryFault .outOfBounds) ∧ Traps (.lhu f) s (.memoryFault .outOfBounds))

/-- `lw` writes the big-endian word at an aligned effective address inside memory, and faults elsewhere,
alignment first (45_load_store; the opcode is the parameter of D12a, log 6; D5, D6, D7). -/
def Obligations.WordLoadReadsTheBigEndianWord : Prop :=
  (∀ (lw : LwOpcode) (rs rt : RegIdx) (imm : Imm),
    decode lw (lw.code ++ rs ++ rt ++ imm) = .ok (.lw ⟨rs, rt, imm⟩)) ∧
  ∀ (f : IFields) (s : State),
    let ea := (effAddr f s).toNat
    (ea % 4 = 0 → ea + 4 ≤ s.cfg.memSize →
      ∃ v, WritesReg (.lw f) s f.rt v ∧
        ∀ k, k < 4 → v.extractLsb' (24 - 8 * k) 8 = s.mem.read (ea + k)) ∧
    (ea % 4 ≠ 0 → Traps (.lw f) s (.memoryFault .misaligned)) ∧
    (ea % 4 = 0 → s.cfg.memSize < ea + 4 → Traps (.lw f) s (.memoryFault .outOfBounds))

/-- R48: a misaligned halfword or word access raises `MemoryFault(Misaligned)`, a misaligned fetch raises
`BadFetch`, and a byte access is never misaligned. -/
def Obligations.MisalignedAccessesFault : Prop :=
  ∀ (f : IFields) (s : State),
    let ea := (effAddr f s).toNat
    let k := Fault.memoryFault .misaligned
    (ea % 2 ≠ 0 → Traps (.lh f) s k ∧ Traps (.lhu f) s k ∧ Traps (.sh f) s k) ∧
    (ea % 4 ≠ 0 → Traps (.lw f) s k ∧ Traps (.sw f) s k) ∧
    (¬ Traps (.lb f) s k ∧ ¬ Traps (.lbu f) s k ∧ ¬ Traps (.sb f) s k) ∧
    (s.run = .running → s.cfg.stackLimit.toNat ≤ (s.readReg 29#5).toNat →
      s.pc.toNat % 4 ≠ 0 → ∃ t, step s = .next t ∧ FaultTaken s t .badFetch)

/-- A store completes where its access is aligned and inside memory: it stores its bytes big-endian,
changes no other byte and no register, and goes on at `pc + 4`; without a watch it does nothing
else (45_load_store; D5, D6, D26, log 10). -/
def Obligations.StoresWriteTheirOwnBytes : Prop :=
  EncodedI 40#6 .sb ∧ EncodedI 41#6 .sh ∧ EncodedI 43#6 .sw ∧
  ∀ (f : IFields) (s : State), s.mem.wf = true →
    let ea := (effAddr f s).toNat
    let v := s.readReg f.rt
    (ea + 1 ≤ s.cfg.memSize → ∃ t, exec (.sb f) s = .next t ∧
      t.mem.read ea = v.extractLsb' 0 8 ∧ SameMemOutside s t ea 1 ∧
      t.pc = s.pc + 4#32 ∧ SameRegs s t ∧ SameHiLo s t ∧ SameHost s t ∧
      (s.cfg.mmioWatch = none → SameRun s t)) ∧
    (ea % 2 = 0 → ea + 2 ≤ s.cfg.memSize → ∃ t, exec (.sh f) s = .next t ∧
      t.mem.read ea = v.extractLsb' 8 8 ∧ t.mem.read (ea + 1) = v.extractLsb' 0 8 ∧
      SameMemOutside s t ea 2 ∧
      t.pc = s.pc + 4#32 ∧ SameRegs s t ∧ SameHiLo s t ∧ SameHost s t ∧
      (s.cfg.mmioWatch = none → SameRun s t)) ∧
    (ea % 4 = 0 → ea + 4 ≤ s.cfg.memSize → ∃ t, exec (.sw f) s = .next t ∧
      (∀ k, k < 4 → t.mem.read (ea + k) = v.extractLsb' (24 - 8 * k) 8) ∧
      SameMemOutside s t ea 4 ∧
      t.pc = s.pc + 4#32 ∧ SameRegs s t ∧ SameHiLo s t ∧ SameHost s t ∧
      (s.cfg.mmioWatch = none → SameRun s t))

/-- A store outside memory faults and stores nothing, and alignment is checked first (45_load_store;
D6, D7, log 11). -/
def Obligations.StoresOutsideMemoryFault : Prop :=
  ∀ (f : IFields) (s : State),
    let ea := (effAddr f s).toNat
    (s.cfg.memSize < ea + 1 → Traps (.sb f) s (.memoryFault .outOfBounds)) ∧
    (ea % 2 = 0 → s.cfg.memSize < ea + 2 → Traps (.sh f) s (.memoryFault .outOfBounds)) ∧
    (ea % 2 = 1 → Traps (.sh f) s (.memoryFault .misaligned)) ∧
    (ea % 4 = 0 → s.cfg.memSize < ea + 4 → Traps (.sw f) s (.memoryFault .outOfBounds)) ∧
    (ea % 4 ≠ 0 → Traps (.sw f) s (.memoryFault .misaligned))

/-- What a retiring store does to the output stream and the run state under the host watch, `sv` being
its stored value zero-extended (20_memory section 7; D26, log 20). -/
def Obligations.WatchedStoresEmitAndHalt : Prop :=
  ∀ (i : Instr) (s : State) (ea : Word) (n : Nat) (sv : Word) (m : MmioWatch),
    s.cfg.mmioWatch = some m → storeOf s i = some (ea, n, sv) →
    ea.toNat % n = 0 → ea.toNat + n ≤ s.cfg.memSize →
    ∃ t, exec i s = .next t ∧ t.pc = s.pc + 4#32 ∧
      (ea = m.outAddr → t.out = s.out ++ [sv.extractLsb' 0 8]) ∧
      (ea ≠ m.outAddr → t.out = s.out) ∧
      (ea = m.haltAddr ∧ sv = 1#32 → t.run = .halted) ∧
      (¬ (ea = m.haltAddr ∧ sv = 1#32) → t.run = s.run)

/-- After a retired `sw`, the word reads back whole, each of its bytes and halfwords reads as the
matching part, and the next fetch of that address sees it (20_memory sections 2 and 8; D5, D33). -/
def Obligations.AStoredWordReadsBack : Prop :=
  ∀ (f : IFields) (s t : State),
    let ea := (effAddr f s).toNat
    let v := s.readReg f.rt
    s.mem.wf = true → ea % 4 = 0 → ea + 4 ≤ s.cfg.memSize → exec (.sw f) s = .next t →
    t.mem.readWord ea = v ∧
    (∀ k, k < 4 → byteUnsigned t.mem (ea + k) = (v.extractLsb' (24 - 8 * k) 8).setWidth 32) ∧
    (∀ j, j < 2 → halfUnsigned t.mem (ea + 2 * j) = (v.extractLsb' (16 - 16 * j) 16).setWidth 32) ∧
    (t.setPc (effAddr f s)).fetch = some v

/-! ### System call -/

/-- `syscall` always completes: with the host's answer `Result(v)` it writes `v` to `x[2]`, with `Halt`
the engine becomes `Halted`; the pc advances by 4 either way, nothing else changes, and one answer
has been drawn (46_system; D22, D23, D24; the source of the answers is the model's, log 2). -/
def Obligations.SyscallAppliesTheHostsAnswer : Prop :=
  EncodedR 0x0C#6 .syscall ∧
  ∀ (f : RFields) (s : State),
    ∃ t, exec (.syscall f) s = .next t ∧ t.pc = s.pc + 4#32 ∧ SameHiLo s t ∧ SameMem s t ∧
      t.out = s.out ∧ t.cfg = s.cfg ∧ t.hostAnswers = s.hostAnswers.tail ∧
      t.hostDraws = s.hostDraws + 1 ∧
      (∀ v, s.hostAnswer = .result v → RegsAfter s t 2#5 v ∧ t.run = s.run) ∧
      (s.hostAnswer = .halt → SameRegs s t ∧ t.run = .halted)

/-- A `syscall` whose answer is not settled yet takes the host's free answer to the register file as it
stands, with `x[0]` zero, and a settled one takes the oldest (46_system R132's interface; D23,
log 2). -/
def Obligations.SyscallAnswersComeFromTheHost : Prop :=
  ∀ (s : State),
    (∀ a rest, s.hostAnswers = a :: rest → s.hostAnswer = a) ∧
    (s.hostAnswers = [] → ∃ file : Vector Word 32,
      s.hostAnswer = Config.syscallAnswer s.hostDraws file ∧
      ∀ r : RegIdx, file[r.toNat] = s.readReg r)

/-! ### Construction and reset -/

/-- The state after construction, for every configuration (70_reset_and_hazards section 1; the zeros of
the registers other than `sp` are decision D30, log 3). -/
def Obligations.ResetStateIsAsTheSpecSays : Prop :=
  ∀ (c : Config),
    let s := State.initial c
    s.run = .running ∧ s.pc = c.entryPc ∧ s.readReg 29#5 = c.stackTop ∧
    (∀ r, r ≠ 29#5 → s.readReg r = 0#32) ∧ s.hi = 0#32 ∧ s.lo = 0#32 ∧
    (∀ a, s.mem.read a = 0#8) ∧ s.out = [] ∧ s.cfg = c

/-- Program load: the program stands big-endian at `LOAD_ADDR`, every other byte is 0, and a program that
does not fit, or a misaligned `LOAD_ADDR`, is refused (70_reset_and_hazards section 1; D29, log 7). -/
def Obligations.LaunchLoadsTheProgram : Prop :=
  ∀ (c : Config) (program : List Word),
    (c.wf = true → c.loadAddr.toNat % 4 = 0 →
      c.loadAddr.toNat + 4 * program.length ≤ c.memSize →
      ∃ s, launch c program = some s ∧
        (∀ (j b : Nat) (w : Word), program[j]? = some w → b < 4 →
          s.mem.read (c.loadAddr.toNat + 4 * j + b) = w.extractLsb' (24 - 8 * b) 8) ∧
        (∀ a, a < c.loadAddr.toNat ∨ c.loadAddr.toNat + 4 * program.length ≤ a →
          s.mem.read a = 0#8) ∧
        SameRegs (State.initial c) s ∧ SameHiLo (State.initial c) s ∧ s.pc = c.entryPc ∧
        s.run = .running ∧ s.out = [] ∧ s.cfg = c) ∧
    (c.loadAddr.toNat % 4 ≠ 0 ∨ c.memSize < c.loadAddr.toNat + 4 * program.length →
      launch c program = none)
end

