-- ==== Sys2Proof/Laws/Decode.lean ====
section
/-! SUPPORT. The bits of an encoding: splitting a word into fields and putting the fields back are
inverse to each other (30_encoding R65, R66, R70). -/

namespace Sys2Proof

variable (f : RFields) (g : IFields) (func op : BitVec 6)

/-! ### Fields of a word put together from fields -/

theorem toWord_r_op : ((Raw.r f func).toWord).extractLsb' 26 6 = 0#6 := by
  apply BitVec.eq_of_getLsbD_eq; intro i hi
  simp [Raw.toWord]; grind
theorem toWord_r_rs : ((Raw.r f func).toWord).extractLsb' 21 5 = f.rs := by
  apply BitVec.eq_of_getLsbD_eq; intro i hi
  simp [Raw.toWord]; grind
theorem toWord_r_rt : ((Raw.r f func).toWord).extractLsb' 16 5 = f.rt := by
  apply BitVec.eq_of_getLsbD_eq; intro i hi
  simp [Raw.toWord]; grind
theorem toWord_r_rd : ((Raw.r f func).toWord).extractLsb' 11 5 = f.rd := by
  apply BitVec.eq_of_getLsbD_eq; intro i hi
  simp [Raw.toWord]; grind
theorem toWord_r_shamt : ((Raw.r f func).toWord).extractLsb' 6 5 = f.shamt := by
  apply BitVec.eq_of_getLsbD_eq; intro i hi
  simp [Raw.toWord]; grind
theorem toWord_r_func : ((Raw.r f func).toWord).extractLsb' 0 6 = func := by
  apply BitVec.eq_of_getLsbD_eq; intro i hi
  simp [Raw.toWord]; grind
theorem toWord_i_op : ((Raw.i op g).toWord).extractLsb' 26 6 = op := by
  apply BitVec.eq_of_getLsbD_eq; intro i hi
  simp [Raw.toWord]; grind
theorem toWord_i_rs : ((Raw.i op g).toWord).extractLsb' 21 5 = g.rs := by
  apply BitVec.eq_of_getLsbD_eq; intro i hi
  simp [Raw.toWord]; grind
theorem toWord_i_rt : ((Raw.i op g).toWord).extractLsb' 16 5 = g.rt := by
  apply BitVec.eq_of_getLsbD_eq; intro i hi
  simp [Raw.toWord]; grind
theorem toWord_i_imm : ((Raw.i op g).toWord).extractLsb' 0 16 = g.imm := by
  apply BitVec.eq_of_getLsbD_eq; intro i hi
  simp [Raw.toWord]; grind

/-- Splitting an R-type word gives its fields back (R65, R69). -/
theorem ofWord_toWord_r : Raw.ofWord (Raw.r f func).toWord = .r f func := by
  simp only [Raw.ofWord, toWord_r_op, toWord_r_rs, toWord_r_rt, toWord_r_rd, toWord_r_shamt,
    toWord_r_func, if_true]

/-- Splitting an I-type word gives its fields back, for an opcode other than 0 (R66, R69). -/
theorem ofWord_toWord_i (h : op ≠ 0#6) : Raw.ofWord (Raw.i op g).toWord = .i op g := by
  simp only [Raw.ofWord, toWord_i_op, toWord_i_rs, toWord_i_rt, toWord_i_imm, if_neg h]

/-- Putting the fields of a word together gives the word back: no bit is dropped (R70). -/
theorem toWord_ofWord (w : Word) : (Raw.ofWord w).toWord = w := by
  unfold Raw.ofWord
  dsimp only
  split
  · rename_i h0
    have hop : ∀ k, k < 6 → w.getLsbD (26 + k) = false := fun k hk => by
      have := congrArg (·.getLsbD k) h0
      simpa [hk] using this
    apply BitVec.eq_of_getLsbD_eq; intro i hi
    by_cases h26 : 26 ≤ i
    · have := hop (i - 26) (by omega)
      rw [show 26 + (i - 26) = i by omega] at this
      simp [Raw.toWord]; grind
    · simp [Raw.toWord]; grind
  · apply BitVec.eq_of_getLsbD_eq; intro i hi
    simp [Raw.toWord]; grind

/-- The fixed bits of an R-type word (mask 0xFC00003F of R74). -/
theorem toWord_r_fixed : (Raw.r f func).toWord &&& 0xFC00003F#32 = func.setWidth 32 := by
  apply BitVec.eq_of_getLsbD_eq; intro i hi
  have : (0xFC00003F#32).getLsbD i = decide (i < 6 ∨ 26 ≤ i) := by
    revert hi; revert i; decide
  simp only [BitVec.getLsbD_and, this, Raw.toWord, BitVec.getLsbD_append, BitVec.getLsbD_setWidth]
  grind

/-- The fixed bits of an I-type word (mask 0xFC000000 of R75). -/
theorem toWord_i_fixed : (Raw.i op g).toWord &&& 0xFC000000#32 = op ++ 0#26 := by
  apply BitVec.eq_of_getLsbD_eq; intro i hi
  have : (0xFC000000#32).getLsbD i = decide (26 ≤ i) := by
    revert hi; revert i; decide
  simp only [BitVec.getLsbD_and, this, Raw.toWord, BitVec.getLsbD_append]
  grind

/-! ### The tables -/

theorem lwCode_ne_zero (lw : LwOpcode) : lw.code ≠ 0#6 := by cases lw <;> decide

/-- The table of R74 read back from an instruction's own func. -/
theorem classify_raw (lw : LwOpcode) (i : Instr) : (i.raw lw).classify lw = .ok i := by
  cases i with
  | lw f => cases lw <;> rfl
  | _ f => rfl

end Sys2Proof
end

