-- ==== Sys2Proof/Laws/Memory.lean ====
section
/-! SUPPORT. The byte memory: a read after a write, the canonical form, and the bound of its addresses
(20_memory R43, R44, R51, R52). -/

namespace Sys2Proof.Machine

/-- Every listed address is at least `n`. -/
def Memory.from (n : Nat) (m : Memory) : Prop := ∀ c ∈ m, n ≤ c.1

theorem Memory.wf_cons (c : Host.Cell) (m : Memory) :
    Memory.wf (c :: m) = true ↔ c.2 ≠ 0#8 ∧ Memory.from (c.1 + 1) m ∧ Memory.wf m = true := by
  induction m generalizing c with
  | nil => simp [Memory.wf, Memory.from]
  | cons d m ih =>
    have hd := ih d
    simp only [Memory.wf, Bool.and_eq_true, decide_eq_true_eq]
    constructor
    · rintro ⟨⟨h0, hlt⟩, hw⟩
      refine ⟨h0, fun e he => ?_, hw⟩
      rcases List.mem_cons.1 he with rfl | he
      · omega
      · have := (hd.1 hw).2.1 e he; omega
    · rintro ⟨h0, hf, hw⟩
      exact ⟨⟨h0, hf d (List.mem_cons_self ..)⟩, hw⟩

@[simp] theorem Memory.read_nil (a : Nat) : Memory.read [] a = 0#8 := rfl

/-- An address below every listed one reads 0 (R44). -/
theorem Memory.read_of_from {n : Nat} {m : Memory} (h : Memory.from n m) {a : Nat} (ha : a < n) :
    m.read a = 0#8 := by
  induction m with
  | nil => rfl
  | cons c m ih =>
    have hc := h c (List.mem_cons_self ..)
    rw [Memory.read, if_neg (by omega)]
    exact ih fun e he => h e (List.mem_cons_of_mem _ he)

theorem Memory.read_cons (a : Nat) (b : Byte) (m : Memory) (h : Memory.from (a + 1) m) (x : Nat) :
    (Memory.cons a b m).read x = if x = a then b else m.read x := by
  unfold Memory.cons
  split
  · rename_i hb
    split
    · rename_i hx; subst hx; rw [hb]; exact Memory.read_of_from h (by omega)
    · rfl
  · simp only [Memory.read, eq_comm]

/-- R52, R51: a byte written reads back, and no other byte changes. -/
theorem Memory.read_write {m : Memory} (hm : m.wf = true) (a : Nat) (b : Byte) (x : Nat) :
    (m.write a b).read x = if x = a then b else m.read x := by
  induction m with
  | nil => exact Memory.read_cons a b [] (by simp [Memory.from]) x
  | cons c m ih =>
    obtain ⟨-, hf, hw⟩ := (Memory.wf_cons c m).1 hm
    unfold Memory.write
    split
    · rename_i hlt
      refine Memory.read_cons a b _ (fun e he => ?_) x
      rcases List.mem_cons.1 he with rfl | he
      · omega
      · have := hf e he; omega
    · split
      · rename_i hca
        subst hca
        rw [Memory.read_cons _ b m hf]
        split
        · rfl
        · rw [Memory.read, if_neg (by omega)]
      · rename_i hca
        simp only [Memory.read]
        rw [ih hw]
        by_cases hx : c.1 = x
        · have : x ≠ a := by omega
          simp [hx, this]
        · simp [hx]

theorem Memory.mem_cons_cases {a : Nat} {b : Byte} {m : Memory} {c : Host.Cell}
    (h : c ∈ Memory.cons a b m) : c.1 = a ∨ c ∈ m := by
  unfold Memory.cons at h
  split at h
  · exact .inr h
  · rcases List.mem_cons.1 h with rfl | h
    · exact .inl rfl
    · exact .inr h

/-- A write lists no address but its own. -/
theorem Memory.mem_write_cases {a : Nat} {b : Byte} {m : Memory} {c : Host.Cell}
    (h : c ∈ m.write a b) : c.1 = a ∨ c ∈ m := by
  induction m with
  | nil => exact Memory.mem_cons_cases h
  | cons d m ih =>
    unfold Memory.write at h
    split at h
    · exact Memory.mem_cons_cases h
    · split at h
      · exact (Memory.mem_cons_cases h).imp_right (List.mem_cons_of_mem _)
      · rcases List.mem_cons.1 h with rfl | h
        · exact .inr (List.mem_cons_self ..)
        · exact (ih h).imp_right (List.mem_cons_of_mem _)

theorem Memory.wf_consByte {a : Nat} {m : Memory} (b : Byte) (hf : Memory.from (a + 1) m)
    (hw : m.wf = true) : (Memory.cons a b m).wf = true := by
  unfold Memory.cons
  split
  · exact hw
  · exact (Memory.wf_cons _ _).2 ⟨by assumption, hf, hw⟩

/-- A write keeps the canonical form. -/
theorem Memory.wf_write {m : Memory} (hm : m.wf = true) (a : Nat) (b : Byte) :
    (m.write a b).wf = true := by
  induction m with
  | nil => exact Memory.wf_consByte b (by simp [Memory.from]) rfl
  | cons c m ih =>
    obtain ⟨h0, hf, hw⟩ := (Memory.wf_cons c m).1 hm
    unfold Memory.write
    split
    · refine Memory.wf_consByte b (fun e he => ?_) hm
      rcases List.mem_cons.1 he with rfl | he
      · omega
      · have := hf e he; omega
    · split
      · rename_i hca; exact Memory.wf_consByte b (hca ▸ hf) hw
      · refine (Memory.wf_cons _ _).2 ⟨h0, fun e he => ?_, ih hw⟩
        rcases Memory.mem_write_cases he with h | h
        · omega
        · exact hf e h

/-! ### The three widths -/

theorem Memory.wf_writeByte {m : Memory} (hm : m.wf = true) (a : Nat) (v : Word) :
    (m.writeByte a v).wf = true := Memory.wf_write hm a _

theorem Memory.wf_writeHalf {m : Memory} (hm : m.wf = true) (a : Nat) (v : Word) :
    (m.writeHalf a v).wf = true := Memory.wf_write (Memory.wf_write hm _ _) _ _

theorem Memory.wf_writeWord {m : Memory} (hm : m.wf = true) (a : Nat) (v : Word) :
    (m.writeWord a v).wf = true :=
  Memory.wf_write (Memory.wf_write (Memory.wf_write (Memory.wf_write hm _ _) _ _) _ _) _ _

theorem Memory.read_writeByte {m : Memory} (hm : m.wf = true) (a : Nat) (v : Word) (x : Nat) :
    (m.writeByte a v).read x = if x = a then byteOfWord v 3 else m.read x :=
  Memory.read_write hm a _ x

theorem Memory.read_writeHalf {m : Memory} (hm : m.wf = true) (a : Nat) (v : Word) (x : Nat) :
    (m.writeHalf a v).read x =
      if x = a + 1 then byteOfWord v 3 else if x = a then byteOfWord v 2 else m.read x := by
  rw [Memory.writeHalf, Memory.read_write (Memory.wf_write hm _ _), Memory.read_write hm]

theorem Memory.read_writeWord {m : Memory} (hm : m.wf = true) (a : Nat) (v : Word) (x : Nat) :
    (m.writeWord a v).read x =
      if x = a + 3 then byteOfWord v 3 else if x = a + 2 then byteOfWord v 2
      else if x = a + 1 then byteOfWord v 1 else if x = a then byteOfWord v 0 else m.read x := by
  have h1 := Memory.wf_write hm a (byteOfWord v 0)
  have h2 := Memory.wf_write h1 (a + 1) (byteOfWord v 1)
  have h3 := Memory.wf_write h2 (a + 2) (byteOfWord v 2)
  rw [Memory.writeWord, Memory.read_write h3, Memory.read_write h2, Memory.read_write h1,
    Memory.read_write hm]

/-- The four bytes of a word put together again are the word (R46). -/
theorem wordOfBytes_byteOfWord (v : Word) :
    wordOfBytes (byteOfWord v 0) (byteOfWord v 1) (byteOfWord v 2) (byteOfWord v 3) = v := by
  apply BitVec.eq_of_getLsbD_eq
  intro i hi
  simp only [wordOfBytes, byteOfWord, BitVec.getLsbD_append, BitVec.getLsbD_extractLsb']
  have : i < 32 := hi
  split
  · simp; omega
  · split
    · simp; grind
    · split
      · simp; grind
      · simp; grind

/-- A word written reads back whole (R51, R52). -/
theorem Memory.readWord_writeWord {m : Memory} (hm : m.wf = true) (a : Nat) (v : Word) :
    (m.writeWord a v).readWord a = v := by
  simp only [Memory.readWord, Memory.read_writeWord hm]
  simpa using wordOfBytes_byteOfWord v

/-- Where the addresses a store lists may lie: every listed address is below `bound`. -/
theorem Memory.write_below {m : Memory} {bound a : Nat} (b : Byte) (ha : a < bound)
    (hm : ∀ c ∈ m, c.1 < bound) : ∀ c ∈ m.write a b, c.1 < bound := by
  intro c hc
  rcases Memory.mem_write_cases hc with h | h
  · omega
  · exact hm c h

theorem Memory.writeByte_below {m : Memory} {bound a : Nat} (v : Word) (ha : a + 1 ≤ bound)
    (hm : ∀ c ∈ m, c.1 < bound) : ∀ c ∈ m.writeByte a v, c.1 < bound :=
  Memory.write_below _ (by omega) hm

theorem Memory.writeHalf_below {m : Memory} {bound a : Nat} (v : Word) (ha : a + 2 ≤ bound)
    (hm : ∀ c ∈ m, c.1 < bound) : ∀ c ∈ m.writeHalf a v, c.1 < bound :=
  Memory.write_below _ (by omega) (Memory.write_below _ (by omega) hm)

theorem Memory.writeWord_below {m : Memory} {bound a : Nat} (v : Word) (ha : a + 4 ≤ bound)
    (hm : ∀ c ∈ m, c.1 < bound) : ∀ c ∈ m.writeWord a v, c.1 < bound :=
  Memory.write_below _ (by omega) (Memory.write_below _ (by omega)
    (Memory.write_below _ (by omega) (Memory.write_below _ (by omega) hm)))

/-! ### Program load -/

theorem Memory.wf_loadWords {m : Memory} (hm : m.wf = true) (a : Nat) (ws : List Word) :
    (m.loadWords a ws).wf = true := by
  induction ws generalizing m a with
  | nil => exact hm
  | cons w ws ih => exact ih (Memory.wf_writeWord hm a w) (a + 4)

theorem Memory.loadWords_below {m : Memory} {bound a : Nat} (ws : List Word)
    (ha : a + 4 * ws.length ≤ bound) (hm : ∀ c ∈ m, c.1 < bound) :
    ∀ c ∈ m.loadWords a ws, c.1 < bound := by
  induction ws generalizing m a with
  | nil => exact hm
  | cons w ws ih =>
    simp only [List.length_cons] at ha
    exact ih (by omega) (Memory.writeWord_below w (by omega) hm)

end Sys2Proof.Machine
end

