-- ==== Sys2Proof/Laws/State.lean ====
section
/-! SUPPORT. One lemma per field per update of `State`, each true by unfolding the update once. -/

namespace Sys2Proof.Machine

variable (s : State)

@[simp] theorem State.setHi_regs (v : Word) : (s.setHi v).regs = s.regs := rfl
@[simp] theorem State.setHi_hi (v : Word) : (s.setHi v).hi = v := rfl
@[simp] theorem State.setHi_lo (v : Word) : (s.setHi v).lo = s.lo := rfl
@[simp] theorem State.setHi_pc (v : Word) : (s.setHi v).pc = s.pc := rfl
@[simp] theorem State.setHi_mem (v : Word) : (s.setHi v).mem = s.mem := rfl
@[simp] theorem State.setHi_run (v : Word) : (s.setHi v).run = s.run := rfl
@[simp] theorem State.setHi_out (v : Word) : (s.setHi v).out = s.out := rfl
@[simp] theorem State.setHi_cfg (v : Word) : (s.setHi v).cfg = s.cfg := rfl
@[simp] theorem State.setHi_hostAnswers (v : Word) : (s.setHi v).hostAnswers = s.hostAnswers := rfl
@[simp] theorem State.setHi_hostDraws (v : Word) : (s.setHi v).hostDraws = s.hostDraws := rfl

@[simp] theorem State.setLo_regs (v : Word) : (s.setLo v).regs = s.regs := rfl
@[simp] theorem State.setLo_hi (v : Word) : (s.setLo v).hi = s.hi := rfl
@[simp] theorem State.setLo_lo (v : Word) : (s.setLo v).lo = v := rfl
@[simp] theorem State.setLo_pc (v : Word) : (s.setLo v).pc = s.pc := rfl
@[simp] theorem State.setLo_mem (v : Word) : (s.setLo v).mem = s.mem := rfl
@[simp] theorem State.setLo_run (v : Word) : (s.setLo v).run = s.run := rfl
@[simp] theorem State.setLo_out (v : Word) : (s.setLo v).out = s.out := rfl
@[simp] theorem State.setLo_cfg (v : Word) : (s.setLo v).cfg = s.cfg := rfl
@[simp] theorem State.setLo_hostAnswers (v : Word) : (s.setLo v).hostAnswers = s.hostAnswers := rfl
@[simp] theorem State.setLo_hostDraws (v : Word) : (s.setLo v).hostDraws = s.hostDraws := rfl

@[simp] theorem State.setPc_regs (v : Word) : (s.setPc v).regs = s.regs := rfl
@[simp] theorem State.setPc_hi (v : Word) : (s.setPc v).hi = s.hi := rfl
@[simp] theorem State.setPc_lo (v : Word) : (s.setPc v).lo = s.lo := rfl
@[simp] theorem State.setPc_pc (v : Word) : (s.setPc v).pc = v := rfl
@[simp] theorem State.setPc_mem (v : Word) : (s.setPc v).mem = s.mem := rfl
@[simp] theorem State.setPc_run (v : Word) : (s.setPc v).run = s.run := rfl
@[simp] theorem State.setPc_out (v : Word) : (s.setPc v).out = s.out := rfl
@[simp] theorem State.setPc_cfg (v : Word) : (s.setPc v).cfg = s.cfg := rfl
@[simp] theorem State.setPc_hostAnswers (v : Word) : (s.setPc v).hostAnswers = s.hostAnswers := rfl
@[simp] theorem State.setPc_hostDraws (v : Word) : (s.setPc v).hostDraws = s.hostDraws := rfl

@[simp] theorem State.setMem_regs (m : Memory) : (s.setMem m).regs = s.regs := rfl
@[simp] theorem State.setMem_hi (m : Memory) : (s.setMem m).hi = s.hi := rfl
@[simp] theorem State.setMem_lo (m : Memory) : (s.setMem m).lo = s.lo := rfl
@[simp] theorem State.setMem_pc (m : Memory) : (s.setMem m).pc = s.pc := rfl
@[simp] theorem State.setMem_mem (m : Memory) : (s.setMem m).mem = m := rfl
@[simp] theorem State.setMem_run (m : Memory) : (s.setMem m).run = s.run := rfl
@[simp] theorem State.setMem_out (m : Memory) : (s.setMem m).out = s.out := rfl
@[simp] theorem State.setMem_cfg (m : Memory) : (s.setMem m).cfg = s.cfg := rfl
@[simp] theorem State.setMem_hostAnswers (m : Memory) : (s.setMem m).hostAnswers = s.hostAnswers := rfl
@[simp] theorem State.setMem_hostDraws (m : Memory) : (s.setMem m).hostDraws = s.hostDraws := rfl

@[simp] theorem State.setRun_regs (r : RunState) : (s.setRun r).regs = s.regs := rfl
@[simp] theorem State.setRun_hi (r : RunState) : (s.setRun r).hi = s.hi := rfl
@[simp] theorem State.setRun_lo (r : RunState) : (s.setRun r).lo = s.lo := rfl
@[simp] theorem State.setRun_pc (r : RunState) : (s.setRun r).pc = s.pc := rfl
@[simp] theorem State.setRun_mem (r : RunState) : (s.setRun r).mem = s.mem := rfl
@[simp] theorem State.setRun_run (r : RunState) : (s.setRun r).run = r := rfl
@[simp] theorem State.setRun_out (r : RunState) : (s.setRun r).out = s.out := rfl
@[simp] theorem State.setRun_cfg (r : RunState) : (s.setRun r).cfg = s.cfg := rfl
@[simp] theorem State.setRun_hostAnswers (r : RunState) : (s.setRun r).hostAnswers = s.hostAnswers := rfl
@[simp] theorem State.setRun_hostDraws (r : RunState) : (s.setRun r).hostDraws = s.hostDraws := rfl

@[simp] theorem State.emit_regs (b : Byte) : (s.emit b).regs = s.regs := rfl
@[simp] theorem State.emit_hi (b : Byte) : (s.emit b).hi = s.hi := rfl
@[simp] theorem State.emit_lo (b : Byte) : (s.emit b).lo = s.lo := rfl
@[simp] theorem State.emit_pc (b : Byte) : (s.emit b).pc = s.pc := rfl
@[simp] theorem State.emit_mem (b : Byte) : (s.emit b).mem = s.mem := rfl
@[simp] theorem State.emit_run (b : Byte) : (s.emit b).run = s.run := rfl
@[simp] theorem State.emit_out (b : Byte) : (s.emit b).out = s.out ++ [b] := rfl
@[simp] theorem State.emit_cfg (b : Byte) : (s.emit b).cfg = s.cfg := rfl
@[simp] theorem State.emit_hostAnswers (b : Byte) : (s.emit b).hostAnswers = s.hostAnswers := rfl
@[simp] theorem State.emit_hostDraws (b : Byte) : (s.emit b).hostDraws = s.hostDraws := rfl

@[simp] theorem State.takeFault_regs (k : Fault) : (s.takeFault k).regs = s.regs := rfl
@[simp] theorem State.takeFault_hi (k : Fault) : (s.takeFault k).hi = s.hi := rfl
@[simp] theorem State.takeFault_lo (k : Fault) : (s.takeFault k).lo = s.lo := rfl
@[simp] theorem State.takeFault_pc (k : Fault) : (s.takeFault k).pc = s.pc := rfl
@[simp] theorem State.takeFault_mem (k : Fault) : (s.takeFault k).mem = s.mem := rfl
@[simp] theorem State.takeFault_run (k : Fault) : (s.takeFault k).run = .faulted k s.pc := rfl
@[simp] theorem State.takeFault_out (k : Fault) : (s.takeFault k).out = s.out := rfl
@[simp] theorem State.takeFault_cfg (k : Fault) : (s.takeFault k).cfg = s.cfg := rfl
@[simp] theorem State.takeFault_hostAnswers (k : Fault) : (s.takeFault k).hostAnswers = s.hostAnswers := rfl
@[simp] theorem State.takeFault_hostDraws (k : Fault) : (s.takeFault k).hostDraws = s.hostDraws := rfl

@[simp] theorem State.drawAnswer_regs : s.drawAnswer.regs = s.regs := rfl
@[simp] theorem State.drawAnswer_hi : s.drawAnswer.hi = s.hi := rfl
@[simp] theorem State.drawAnswer_lo : s.drawAnswer.lo = s.lo := rfl
@[simp] theorem State.drawAnswer_pc : s.drawAnswer.pc = s.pc := rfl
@[simp] theorem State.drawAnswer_mem : s.drawAnswer.mem = s.mem := rfl
@[simp] theorem State.drawAnswer_run : s.drawAnswer.run = s.run := rfl
@[simp] theorem State.drawAnswer_out : s.drawAnswer.out = s.out := rfl
@[simp] theorem State.drawAnswer_cfg : s.drawAnswer.cfg = s.cfg := rfl
@[simp] theorem State.drawAnswer_hostAnswers : s.drawAnswer.hostAnswers = s.hostAnswers.tail := rfl
@[simp] theorem State.drawAnswer_hostDraws : s.drawAnswer.hostDraws = s.hostDraws + 1 := rfl

@[simp] theorem State.writeReg_hi (r : RegIdx) (v : Word) : (s.writeReg r v).hi = s.hi := rfl
@[simp] theorem State.writeReg_lo (r : RegIdx) (v : Word) : (s.writeReg r v).lo = s.lo := rfl
@[simp] theorem State.writeReg_pc (r : RegIdx) (v : Word) : (s.writeReg r v).pc = s.pc := rfl
@[simp] theorem State.writeReg_mem (r : RegIdx) (v : Word) : (s.writeReg r v).mem = s.mem := rfl
@[simp] theorem State.writeReg_run (r : RegIdx) (v : Word) : (s.writeReg r v).run = s.run := rfl
@[simp] theorem State.writeReg_out (r : RegIdx) (v : Word) : (s.writeReg r v).out = s.out := rfl
@[simp] theorem State.writeReg_cfg (r : RegIdx) (v : Word) : (s.writeReg r v).cfg = s.cfg := rfl
@[simp] theorem State.writeReg_hostAnswers (r : RegIdx) (v : Word) : (s.writeReg r v).hostAnswers = s.hostAnswers := rfl
@[simp] theorem State.writeReg_hostDraws (r : RegIdx) (v : Word) : (s.writeReg r v).hostDraws = s.hostDraws := rfl

/-! A register reads the same after every update but `writeReg`. -/

@[simp] theorem State.readReg_setHi (v : Word) (i : RegIdx) : (s.setHi v).readReg i = s.readReg i := rfl
@[simp] theorem State.readReg_setLo (v : Word) (i : RegIdx) : (s.setLo v).readReg i = s.readReg i := rfl
@[simp] theorem State.readReg_setPc (v : Word) (i : RegIdx) : (s.setPc v).readReg i = s.readReg i := rfl
@[simp] theorem State.readReg_setMem (m : Memory) (i : RegIdx) : (s.setMem m).readReg i = s.readReg i := rfl
@[simp] theorem State.readReg_setRun (r : RunState) (i : RegIdx) : (s.setRun r).readReg i = s.readReg i := rfl
@[simp] theorem State.readReg_emit (b : Byte) (i : RegIdx) : (s.emit b).readReg i = s.readReg i := rfl
@[simp] theorem State.readReg_takeFault (k : Fault) (i : RegIdx) : (s.takeFault k).readReg i = s.readReg i := rfl
@[simp] theorem State.readReg_drawAnswer (i : RegIdx) : s.drawAnswer.readReg i = s.readReg i := rfl

end Sys2Proof.Machine
end

