-- ==== Sys2Proof/Laws/Regs.lean ====
section
/-! SUPPORT. The register file: a read after a write (10_state R16, R21). -/

namespace Sys2Proof.Machine

variable (s : State)

@[simp] theorem State.readReg_zero : s.readReg 0#5 = 0#32 := rfl

theorem State.readReg_of_ne {r : RegIdx} (h : r ≠ 0#5) : s.readReg r = s.regs[r.toNat] := by
  simp [State.readReg, h]

/-- R21, R16: a write lands in its own register, unless that is `x[0]`, and in no other. -/
theorem State.readReg_writeReg (d r : RegIdx) (v : Word) :
    (s.writeReg d v).readReg r = if r = d ∧ r ≠ 0#5 then v else s.readReg r := by
  by_cases hr : r = 0#5
  · simp [hr]
  · by_cases hd : d = 0#5
    · simp [State.readReg, State.writeReg, hd, hr]
    · by_cases hrd : r = d
      · subst hrd; simp [State.readReg, State.writeReg, hr]
      · have : d.toNat ≠ r.toNat := fun h => hrd (BitVec.eq_of_toNat_eq h).symm
        simp [State.readReg, State.writeReg, hr, hd, hrd, this]

@[simp] theorem State.readReg_writeReg_self {d : RegIdx} (h : d ≠ 0#5) (v : Word) :
    (s.writeReg d v).readReg d = v := by
  simp [State.readReg_writeReg, h]

/-- R21: a write to `x[0]` changes nothing at all. -/
@[simp] theorem State.writeReg_zero (v : Word) : s.writeReg 0#5 v = s := rfl

/-- The stored `x[0]` is never touched (R21). -/
@[simp] theorem State.writeReg_regs_zero (d : RegIdx) (v : Word) :
    (s.writeReg d v).regs[0] = s.regs[0] := by
  by_cases hd : d = 0#5
  · simp [hd]
  · have : d.toNat ≠ 0 := fun h => hd (BitVec.eq_of_toNat_eq h)
    simp [State.writeReg, hd, this]

end Sys2Proof.Machine
end

