-- ==== Sys2Proof/Laws/Ops.lean ====
section
/-! SUPPORT. One lemma for each shared operation, saying once everything it can do. -/

namespace Sys2Proof.Machine

variable (s : State)

/-! ### Access checks (20_memory R48, R49, R50) -/

theorem State.accessFault_eq_none {a : Word} {n : Nat} :
    s.accessFault a n = none ↔ a.toNat % n = 0 ∧ a.toNat + n ≤ s.cfg.memSize := by
  unfold State.accessFault
  split
  · simp_all
  · split <;> simp_all

theorem State.accessFault_eq_misaligned {a : Word} {n : Nat} :
    s.accessFault a n = some .misaligned ↔ a.toNat % n ≠ 0 := by
  unfold State.accessFault
  split
  · simp_all
  · split <;> simp_all

theorem State.accessFault_eq_outOfBounds {a : Word} {n : Nat} :
    s.accessFault a n = some .outOfBounds ↔ a.toNat % n = 0 ∧ s.cfg.memSize < a.toNat + n := by
  unfold State.accessFault
  split
  · simp_all
  · split <;> simp_all

/-- A byte access is never misaligned (R48). -/
theorem State.accessFault_byte {a : Word} {k : MemFault} (h : s.accessFault a 1 = some k) :
    k = .outOfBounds := by
  cases k
  · rw [State.accessFault_eq_misaligned] at h; omega
  · rfl

/-- A check reads only the configuration. -/
theorem State.accessFault_congr {s t : State} (h : t.cfg = s.cfg) (a : Word) (n : Nat) :
    t.accessFault a n = s.accessFault a n := by
  unfold State.accessFault; rw [h]

/-! ### Retiring and faulting -/

theorem raise_eq (k : Fault) : raise k s = .next (s.takeFault k) := rfl
theorem retireTo_eq (p : Word) : retireTo p s = .next (s.setPc p) := rfl
theorem retire_eq : retire s = .next (s.setPc (s.pc + 4#32)) := rfl
theorem writeAndRetire_eq (rd : RegIdx) (v : Word) :
    writeAndRetire rd v s = .next ((s.writeReg rd v).setPc (s.pc + 4#32)) := rfl
theorem writeHiLo_eq (h l : Word) :
    writeHiLo h l s = .next (((s.setHi h).setLo l).setPc (s.pc + 4#32)) := rfl

/-- Taking a fault changes the run state and nothing else (R137). -/
theorem State.takeFault_taken (k : Fault) : FaultTaken s (s.takeFault k) k :=
  ⟨rfl, rfl, rfl, fun _ => rfl, ⟨rfl, rfl⟩, fun _ => rfl, rfl, rfl, rfl⟩

theorem trapOrWrite_cases (rd : RegIdx) (x : Int) :
    (fitsSigned x = true ∧ trapOrWrite rd x s = writeAndRetire rd (BitVec.ofInt 32 x) s) ∨
    (fitsSigned x = false ∧ trapOrWrite rd x s = raise .arithmeticFault s) := by
  unfold trapOrWrite; split <;> simp_all

theorem branchIf_cases (c : Bool) (imm : Imm) :
    (c = true ∧ branchIf c imm s = .next (s.setPc (branchTarget s.pc imm))) ∨
    (c = false ∧ branchIf c imm s = .next (s.setPc (s.pc + 4#32))) := by
  cases c <;> simp [branchIf, retireTo_eq, retire_eq]

/-! ### Loads and stores (45_load_store R123) -/

theorem load_cases (n : Nat) (value : Memory → Nat → Word) (ea : Word) (rt : RegIdx) :
    (∃ k, s.accessFault ea n = some k ∧ load n value ea rt s = .next (s.takeFault (.memoryFault k))) ∨
    (s.accessFault ea n = none ∧
      load n value ea rt s =
        .next ((s.writeReg rt (value s.mem ea.toNat)).setPc (s.pc + 4#32))) := by
  unfold load
  cases h : s.accessFault ea n <;> simp [raise_eq, writeAndRetire_eq]

theorem store_cases (n : Nat) (write : Memory → Nat → Word → Memory) (ea v sv : Word) :
    (∃ k, s.accessFault ea n = some k ∧
      store n write ea v sv s = .next (s.takeFault (.memoryFault k))) ∨
    (s.accessFault ea n = none ∧
      store n write ea v sv s =
        .next (((s.setMem (write s.mem ea.toNat v)).watch ea sv).setPc
          (((s.setMem (write s.mem ea.toNat v)).watch ea sv).pc + 4#32))) := by
  unfold store
  cases h : s.accessFault ea n <;> simp [raise_eq, retire_eq]

/-! ### The host watch (20_memory R58) -/

/-- What the watch can do: append a byte or not, halt or not. -/
theorem State.watch_cases (ea sv : Word) :
    (s.cfg.mmioWatch = none ∧ s.watch ea sv = s) ∨
    (∃ m, s.cfg.mmioWatch = some m ∧
      (s.watch ea sv).run = (if ea = m.haltAddr ∧ sv = 1#32 then .halted else s.run) ∧
      (s.watch ea sv).out = (if ea = m.outAddr then s.out ++ [sv.extractLsb' 0 8] else s.out)) := by
  unfold State.watch
  cases h : s.cfg.mmioWatch with
  | none => simp
  | some m =>
    refine .inr ⟨m, rfl, ?_, ?_⟩ <;> dsimp only <;> split <;> split <;> simp_all

/-- The watch touches only the run state and the output stream. -/
theorem State.watch_keeps (ea sv : Word) :
    ∃ r o, s.watch ea sv = { s with run := r, out := o } := by
  unfold State.watch
  split
  · exact ⟨s.run, s.out, rfl⟩
  · dsimp only
    split <;> split <;> exact ⟨_, _, rfl⟩

@[simp] theorem State.watch_regs (ea sv : Word) : (s.watch ea sv).regs = s.regs := by
  obtain ⟨r, o, h⟩ := s.watch_keeps ea sv; rw [h]
@[simp] theorem State.watch_hi (ea sv : Word) : (s.watch ea sv).hi = s.hi := by
  obtain ⟨r, o, h⟩ := s.watch_keeps ea sv; rw [h]
@[simp] theorem State.watch_lo (ea sv : Word) : (s.watch ea sv).lo = s.lo := by
  obtain ⟨r, o, h⟩ := s.watch_keeps ea sv; rw [h]
@[simp] theorem State.watch_pc (ea sv : Word) : (s.watch ea sv).pc = s.pc := by
  obtain ⟨r, o, h⟩ := s.watch_keeps ea sv; rw [h]
@[simp] theorem State.watch_mem (ea sv : Word) : (s.watch ea sv).mem = s.mem := by
  obtain ⟨r, o, h⟩ := s.watch_keeps ea sv; rw [h]
@[simp] theorem State.watch_cfg (ea sv : Word) : (s.watch ea sv).cfg = s.cfg := by
  obtain ⟨r, o, h⟩ := s.watch_keeps ea sv; rw [h]
@[simp] theorem State.watch_hostAnswers (ea sv : Word) :
    (s.watch ea sv).hostAnswers = s.hostAnswers := by
  obtain ⟨r, o, h⟩ := s.watch_keeps ea sv; rw [h]
@[simp] theorem State.watch_hostDraws (ea sv : Word) :
    (s.watch ea sv).hostDraws = s.hostDraws := by
  obtain ⟨r, o, h⟩ := s.watch_keeps ea sv; rw [h]
@[simp] theorem State.readReg_watch (ea sv : Word) (r : RegIdx) :
    (s.watch ea sv).readReg r = s.readReg r := by
  simp [State.readReg]

/-! ### The syscall answer (46_system R132, R133) -/

theorem State.applyAnswer_cases (a : SyscallAnswer) :
    (∃ v, a = .result v ∧ s.applyAnswer a = s.writeReg syscallResultReg v) ∨
    (a = .halt ∧ s.applyAnswer a = s.setRun .halted) := by
  cases a <;> simp [State.applyAnswer]

end Sys2Proof.Machine
end

