-- ==== Sys2Proof/Laws/Exec.lean ====
section
/-! SUPPORT. What executing an instruction can do, said once: six shapes of next state.  The laws
about every instruction cite `exec_cases` instead of unfolding `exec`. -/

namespace Sys2Proof.Machine

/-- What a store of `n` bytes at `a` does to a memory: it keeps the canonical form and the bound, and
changes no byte outside `[a, a + n)`. -/
structure Stored (m m' : Memory) (a n : Nat) : Prop where
  wf      : m.wf = true → m'.wf = true
  below   : ∀ bound, a + n ≤ bound → (∀ c ∈ m, c.1 < bound) → ∀ c ∈ m', c.1 < bound
  outside : m.wf = true → ∀ b, b < a ∨ a + n ≤ b → m'.read b = m.read b

theorem stored_writeByte (m : Memory) (a : Nat) (v : Word) : Stored m (m.writeByte a v) a 1 where
  wf h := Memory.wf_writeByte h a v
  below _ ha h := Memory.writeByte_below v ha h
  outside h b hb := by rw [Memory.read_writeByte h, if_neg (by omega)]

theorem stored_writeHalf (m : Memory) (a : Nat) (v : Word) : Stored m (m.writeHalf a v) a 2 where
  wf h := Memory.wf_writeHalf h a v
  below _ ha h := Memory.writeHalf_below v ha h
  outside h b hb := by
    rw [Memory.read_writeHalf h, if_neg (by omega), if_neg (by omega)]

theorem stored_writeWord (m : Memory) (a : Nat) (v : Word) : Stored m (m.writeWord a v) a 4 where
  wf h := Memory.wf_writeWord h a v
  below _ ha h := Memory.writeWord_below v ha h
  outside h b hb := by
    rw [Memory.read_writeWord h, if_neg (by omega), if_neg (by omega), if_neg (by omega),
      if_neg (by omega)]

/-- The shapes of the state after an instruction. -/
inductive Effect (i : Instr) (s : State) : State → Prop where
  /-- A fault is taken; a store takes one only where its access is refused. -/
  | fault (k : Fault) (h : mayRaise i k = true)
      (hst : ∀ ea n sv, storeOf s i = some (ea, n, sv) → s.accessFault ea n ≠ none) :
      Effect i s (s.takeFault k)
  /-- A general register is written. -/
  | reg (rd : RegIdx) (v : Word) (hd : destReg i = some rd) (hs : isSyscall i = false)
      (hp : redirectsPc i = false) (hm : storeOf s i = none) :
      Effect i s ((s.writeReg rd v).setPc (s.pc + 4#32))
  /-- An accumulator is written. -/
  | hiLo (h l : Word) (hh : writesHi i = false → h = s.hi) (hl : writesLo i = false → l = s.lo)
      (hd : destReg i = none) (hs : isSyscall i = false) (hp : redirectsPc i = false)
      (hm : storeOf s i = none) :
      Effect i s (((s.setHi h).setLo l).setPc (s.pc + 4#32))
  /-- A branch or `jr`. -/
  | jump (p : Word) (hd : destReg i = none) (hs : isSyscall i = false)
      (hp : redirectsPc i = true) (hm : storeOf s i = none) :
      Effect i s (s.setPc p)
  /-- `jalr`. -/
  | link (rd : RegIdx) (p : Word) (hd : destReg i = some rd) (hs : isSyscall i = false)
      (hp : redirectsPc i = true) (hm : storeOf s i = none) :
      Effect i s ((s.writeReg rd (s.pc + 4#32)).setPc p)
  /-- A store retires. -/
  | store (ea : Word) (n : Nat) (sv : Word) (m : Memory) (hm : storeOf s i = some (ea, n, sv))
      (hf : s.accessFault ea n = none) (hst : Stored s.mem m ea.toNat n)
      (hd : destReg i = none) (hs : isSyscall i = false) (hp : redirectsPc i = false) :
      Effect i s (((s.setMem m).watch ea sv).setPc (s.pc + 4#32))
  /-- `syscall`. -/
  | syscall (hs : isSyscall i = true) (hd : destReg i = some syscallResultReg)
      (hp : redirectsPc i = false) (hm : storeOf s i = none) :
      Effect i s ((s.drawAnswer.applyAnswer s.hostAnswer).setPc (s.pc + 4#32))

variable {i : Instr} {s t : State}

theorem effect_trapOrWrite {rd : RegIdx} {x : Int} (h : trapOrWrite rd x s = .next t)
    (hk : mayRaise i .arithmeticFault = true) (hd : destReg i = some rd)
    (hs : isSyscall i = false) (hp : redirectsPc i = false) (hm : storeOf s i = none) :
    Effect i s t := by
  rcases trapOrWrite_cases s rd x with ⟨-, e⟩ | ⟨-, e⟩ <;> rw [e] at h <;> cases h
  · exact .reg rd _ hd hs hp hm
  · exact .fault _ hk (by simp [hm])

theorem effect_branch {c : Bool} {imm : Imm} (h : branchIf c imm s = .next t)
    (hd : destReg i = none) (hs : isSyscall i = false) (hp : redirectsPc i = true)
    (hm : storeOf s i = none) : Effect i s t := by
  rcases branchIf_cases s c imm with ⟨-, e⟩ | ⟨-, e⟩ <;> rw [e] at h <;> cases h
  · exact .jump _ hd hs hp hm
  · exact .jump _ hd hs hp hm

theorem effect_load {n : Nat} {value : Memory → Nat → Word} {ea : Word} {rt : RegIdx}
    (h : load n value ea rt s = .next t)
    (hk : ∀ k, s.accessFault ea n = some k → mayRaise i (.memoryFault k) = true)
    (hd : destReg i = some rt) (hs : isSyscall i = false) (hp : redirectsPc i = false)
    (hm : storeOf s i = none) : Effect i s t := by
  rcases load_cases s n value ea rt with ⟨k, ha, e⟩ | ⟨-, e⟩ <;> rw [e] at h <;> cases h
  · exact .fault _ (hk k ha) (by simp [hm])
  · exact .reg rt _ hd hs hp hm

theorem effect_store {n : Nat} {write : Memory → Nat → Word → Memory} {ea v sv : Word}
    (h : store n write ea v sv s = .next t)
    (hk : ∀ k, s.accessFault ea n = some k → mayRaise i (.memoryFault k) = true)
    (hm : storeOf s i = some (ea, n, sv))
    (hst : Stored s.mem (write s.mem ea.toNat v) ea.toNat n)
    (hd : destReg i = none) (hs : isSyscall i = false) (hp : redirectsPc i = false) :
    Effect i s t := by
  rcases store_cases s n write ea v sv with ⟨k, ha, e⟩ | ⟨ha, e⟩ <;> rw [e] at h <;> cases h
  · refine .fault _ (hk k ha) fun ea' n' sv' e => ?_
    rw [hm] at e
    cases e
    simp [ha]
  · simpa using Effect.store ea n sv _ hm ha hst hd hs hp

/-- Executing an instruction does one of the seven things of `Effect`, and nothing else. -/
theorem exec_cases (h : exec i s = .next t) : Effect i s t := by
  cases i with
  | add f => exact effect_trapOrWrite h rfl rfl rfl rfl rfl
  | sub f => exact effect_trapOrWrite h rfl rfl rfl rfl rfl
  | addi f => exact effect_trapOrWrite h rfl rfl rfl rfl rfl
  | beq f => exact effect_branch h rfl rfl rfl rfl
  | bne f => exact effect_branch h rfl rfl rfl rfl
  | blez f => exact effect_branch h rfl rfl rfl rfl
  | bgtz f => exact effect_branch h rfl rfl rfl rfl
  | jr f => cases h; exact .jump _ rfl rfl rfl rfl
  | jalr f => cases h; exact .link _ _ rfl rfl rfl rfl
  | syscall f =>
    cases h
    have : (s.drawAnswer.applyAnswer s.hostAnswer).pc = s.pc := by
      rcases s.drawAnswer.applyAnswer_cases s.hostAnswer with ⟨v, -, e⟩ | ⟨-, e⟩ <;> simp [e]
    rw [this]
    exact .syscall rfl rfl rfl rfl
  | mthi f =>
    cases h
    exact .hiLo (i := .mthi f) (s.readReg f.rs) s.lo (fun e => nomatch e) (fun _ => rfl) rfl rfl rfl rfl
  | mtlo f =>
    cases h
    exact .hiLo (i := .mtlo f) s.hi (s.readReg f.rs) (fun _ => rfl) (fun e => nomatch e) rfl rfl rfl rfl
  | mult f =>
    cases h
    exact .hiLo (i := .mult f) _ _ (fun e => nomatch e) (fun e => nomatch e) rfl rfl rfl rfl
  | multu f =>
    cases h
    exact .hiLo (i := .multu f) _ _ (fun e => nomatch e) (fun e => nomatch e) rfl rfl rfl rfl
  | div f =>
    cases h
    exact .hiLo (i := .div f) _ _ (fun e => nomatch e) (fun e => nomatch e) rfl rfl rfl rfl
  | divu f =>
    cases h
    exact .hiLo (i := .divu f) _ _ (fun e => nomatch e) (fun e => nomatch e) rfl rfl rfl rfl
  | lb f => exact effect_load h (fun k hk => by rw [s.accessFault_byte hk]; rfl) rfl rfl rfl rfl
  | lbu f => exact effect_load h (fun k hk => by rw [s.accessFault_byte hk]; rfl) rfl rfl rfl rfl
  | lh f => exact effect_load h (fun _ _ => rfl) rfl rfl rfl rfl
  | lhu f => exact effect_load h (fun _ _ => rfl) rfl rfl rfl rfl
  | lw f => exact effect_load h (fun _ _ => rfl) rfl rfl rfl rfl
  | sb f =>
    exact effect_store h (fun k hk => by rw [s.accessFault_byte hk]; rfl) rfl
      (stored_writeByte _ _ _) rfl rfl rfl
  | sh f => exact effect_store h (fun _ _ => rfl) rfl (stored_writeHalf _ _ _) rfl rfl rfl
  | sw f => exact effect_store h (fun _ _ => rfl) rfl (stored_writeWord _ _ _) rfl rfl rfl
  | _ f => cases h; exact .reg _ _ rfl rfl rfl rfl

/-- Every instruction answers a next state. -/
theorem exec_next (i : Instr) (s : State) : ∃ t, exec i s = .next t := by
  have hl : ∀ n v ea rt, ∃ t, load n v ea rt s = .next t := fun n v ea rt => by
    rcases load_cases s n v ea rt with ⟨k, -, e⟩ | ⟨-, e⟩ <;> exact ⟨_, e⟩
  have hs : ∀ n w ea v sv, ∃ t, store n w ea v sv s = .next t := fun n w ea v sv => by
    rcases store_cases s n w ea v sv with ⟨k, -, e⟩ | ⟨-, e⟩ <;> exact ⟨_, e⟩
  have ht : ∀ rd x, ∃ t, trapOrWrite rd x s = .next t := fun rd x => by
    rcases trapOrWrite_cases s rd x with ⟨-, e⟩ | ⟨-, e⟩ <;> exact ⟨_, e⟩
  have hb : ∀ c imm, ∃ t, branchIf c imm s = .next t := fun c imm => by
    rcases branchIf_cases s c imm with ⟨-, e⟩ | ⟨-, e⟩ <;> exact ⟨_, e⟩
  cases i with
  | add f => exact ht _ _
  | sub f => exact ht _ _
  | addi f => exact ht _ _
  | beq f => exact hb _ _
  | bne f => exact hb _ _
  | blez f => exact hb _ _
  | bgtz f => exact hb _ _
  | lb f => exact hl _ _ _ _
  | lbu f => exact hl _ _ _ _
  | lh f => exact hl _ _ _ _
  | lhu f => exact hl _ _ _ _
  | lw f => exact hl _ _ _ _
  | sb f => exact hs _ _ _ _ _
  | sh f => exact hs _ _ _ _ _
  | sw f => exact hs _ _ _ _ _
  | _ f => exact ⟨_, rfl⟩

end Sys2Proof.Machine
end

