-- ==== Sys2Proof/Laws/Operands.lean ====
section
/-! SUPPORT. The operand forms and the overflow check as integers (30_encoding R68, R72; 40_alu_register
R80; 41_shifts R91). -/

namespace Sys2Proof.Machine

/-- The sign-extended immediate keeps its signed value (R68). -/
theorem signImm_toInt (imm : Imm) : (signImm imm).toInt = imm.toInt := by
  simp [signImm, BitVec.toInt_signExtend_of_le]

/-- The sign-extended immediate, read unsigned (R68). -/
theorem signImm_toNat (imm : Imm) : ((signImm imm).toNat : Int) = imm.toInt % 2 ^ 32 := by
  rw [← signImm_toInt]
  have := (signImm imm).isLt
  simp only [BitVec.toInt_eq_toNat_cond]
  split <;> omega

/-- The zero-extended immediate, bit by bit (R68). -/
theorem zeroImm_getLsbD (imm : Imm) (k : Nat) : (zeroImm imm).getLsbD k = imm.getLsbD k := by
  by_cases h : k < 16
  · simp only [zeroImm, BitVec.getLsbD_setWidth, decide_eq_true (show k < 32 by omega),
      Bool.true_and]
  · simp [zeroImm, BitVec.getLsbD_of_ge _ _ (show 16 ≤ k by omega)]

/-- A branch target as a wrapped integer (R116, R29). -/
theorem branchTarget_eq (pc : Word) (imm : Imm) :
    branchTarget pc imm = BitVec.ofInt 32 (pc.toNat + 4 + 4 * imm.toInt) := by
  have h := signImm_toNat imm
  have h2 : ((BitVec.ofInt 32 (pc.toNat + 4 + 4 * imm.toInt)).toNat : Int) =
      (pc.toNat + 4 + 4 * imm.toInt) % 2 ^ 32 := by
    rw [BitVec.toNat_ofInt]; omega
  apply BitVec.eq_of_toNat_eq
  simp [branchTarget, Nat.shiftLeft_eq]
  omega

/-- The register count is the register modulo 32 (R91). -/
theorem regCount_eq (f : RFields) (s : State) : regCount f s = (s.readReg f.rs).toNat % 32 := by
  simp [regCount]

theorem fitsSigned_iff (t : Int) : fitsSigned t = true ↔ -2 ^ 31 ≤ t ∧ t ≤ 2 ^ 31 - 1 := by
  simp [fitsSigned]

/-- An exact result in the signed range is not changed by narrowing it (R80). -/
theorem toInt_ofInt_of_fits {t : Int} (h : fitsSigned t = true) : (BitVec.ofInt 32 t).toInt = t := by
  rw [fitsSigned_iff] at h
  rw [BitVec.toInt_ofInt]
  exact Int.bmod_eq_of_le (by omega) (by omega)

end Sys2Proof.Machine
end

