-- ==== Sys2Proof/Laws/PerInstr.lean ====
section
/-! SUPPORT. The family TableRow: an instruction's encoding has the fixed bits its row of
spec/opcode_table.json gives, whatever its operands are ("match" and "mask", copied from the table;
the row of `lw` is that of `LW_OPCODE = 35`). -/

namespace Sys2Proof.Laws.TableRow

/-- The "mask" of the instruction's row. -/
def mask : Instr → Word
  | .sll _ => 0xFC00003F#32
  | .srl _ => 0xFC00003F#32
  | .sra _ => 0xFC00003F#32
  | .sllv _ => 0xFC00003F#32
  | .srlv _ => 0xFC00003F#32
  | .srav _ => 0xFC00003F#32
  | .jr _ => 0xFC00003F#32
  | .jalr _ => 0xFC00003F#32
  | .syscall _ => 0xFC00003F#32
  | .mfhi _ => 0xFC00003F#32
  | .mthi _ => 0xFC00003F#32
  | .mflo _ => 0xFC00003F#32
  | .mtlo _ => 0xFC00003F#32
  | .mult _ => 0xFC00003F#32
  | .multu _ => 0xFC00003F#32
  | .div _ => 0xFC00003F#32
  | .divu _ => 0xFC00003F#32
  | .add _ => 0xFC00003F#32
  | .addu _ => 0xFC00003F#32
  | .sub _ => 0xFC00003F#32
  | .subu _ => 0xFC00003F#32
  | .and _ => 0xFC00003F#32
  | .or _ => 0xFC00003F#32
  | .xor _ => 0xFC00003F#32
  | .nor _ => 0xFC00003F#32
  | .slt _ => 0xFC00003F#32
  | .sltu _ => 0xFC00003F#32
  | .beq _ => 0xFC000000#32
  | .bne _ => 0xFC000000#32
  | .blez _ => 0xFC000000#32
  | .bgtz _ => 0xFC000000#32
  | .addi _ => 0xFC000000#32
  | .addiu _ => 0xFC000000#32
  | .slti _ => 0xFC000000#32
  | .sltiu _ => 0xFC000000#32
  | .andi _ => 0xFC000000#32
  | .ori _ => 0xFC000000#32
  | .xori _ => 0xFC000000#32
  | .lui _ => 0xFC000000#32
  | .lb _ => 0xFC000000#32
  | .lh _ => 0xFC000000#32
  | .lw _ => 0xFC000000#32
  | .lbu _ => 0xFC000000#32
  | .lhu _ => 0xFC000000#32
  | .sb _ => 0xFC000000#32
  | .sh _ => 0xFC000000#32
  | .sw _ => 0xFC000000#32

/-- The "match" of the instruction's row. -/
def fixed : Instr → Word
  | .sll _ => 0x00000000#32
  | .srl _ => 0x00000002#32
  | .sra _ => 0x00000003#32
  | .sllv _ => 0x00000004#32
  | .srlv _ => 0x00000006#32
  | .srav _ => 0x00000007#32
  | .jr _ => 0x00000008#32
  | .jalr _ => 0x00000009#32
  | .syscall _ => 0x0000000C#32
  | .mfhi _ => 0x00000010#32
  | .mthi _ => 0x00000011#32
  | .mflo _ => 0x00000012#32
  | .mtlo _ => 0x00000013#32
  | .mult _ => 0x00000018#32
  | .multu _ => 0x00000019#32
  | .div _ => 0x0000001A#32
  | .divu _ => 0x0000001B#32
  | .add _ => 0x00000020#32
  | .addu _ => 0x00000021#32
  | .sub _ => 0x00000022#32
  | .subu _ => 0x00000023#32
  | .and _ => 0x00000024#32
  | .or _ => 0x00000025#32
  | .xor _ => 0x00000026#32
  | .nor _ => 0x00000027#32
  | .slt _ => 0x0000002A#32
  | .sltu _ => 0x0000002B#32
  | .beq _ => 0x10000000#32
  | .bne _ => 0x14000000#32
  | .blez _ => 0x18000000#32
  | .bgtz _ => 0x1C000000#32
  | .addi _ => 0x20000000#32
  | .addiu _ => 0x24000000#32
  | .slti _ => 0x28000000#32
  | .sltiu _ => 0x2C000000#32
  | .andi _ => 0x30000000#32
  | .ori _ => 0x34000000#32
  | .xori _ => 0x38000000#32
  | .lui _ => 0x3C000000#32
  | .lb _ => 0x80000000#32
  | .lh _ => 0x84000000#32
  | .lw _ => 0x8C000000#32
  | .lbu _ => 0x90000000#32
  | .lhu _ => 0x94000000#32
  | .sb _ => 0xA0000000#32
  | .sh _ => 0xA4000000#32
  | .sw _ => 0xAC000000#32

/-- The encoding agrees with the row on the bits the mask selects. -/
def Statement (i : Instr) : Prop := encode .mips32 i &&& mask i = fixed i

theorem sll (f : RFields) : Statement (.sll f) := (toWord_r_fixed f _).trans rfl
theorem srl (f : RFields) : Statement (.srl f) := (toWord_r_fixed f _).trans rfl
theorem sra (f : RFields) : Statement (.sra f) := (toWord_r_fixed f _).trans rfl
theorem sllv (f : RFields) : Statement (.sllv f) := (toWord_r_fixed f _).trans rfl
theorem srlv (f : RFields) : Statement (.srlv f) := (toWord_r_fixed f _).trans rfl
theorem srav (f : RFields) : Statement (.srav f) := (toWord_r_fixed f _).trans rfl
theorem jr (f : RFields) : Statement (.jr f) := (toWord_r_fixed f _).trans rfl
theorem jalr (f : RFields) : Statement (.jalr f) := (toWord_r_fixed f _).trans rfl
theorem syscall (f : RFields) : Statement (.syscall f) := (toWord_r_fixed f _).trans rfl
theorem mfhi (f : RFields) : Statement (.mfhi f) := (toWord_r_fixed f _).trans rfl
theorem mthi (f : RFields) : Statement (.mthi f) := (toWord_r_fixed f _).trans rfl
theorem mflo (f : RFields) : Statement (.mflo f) := (toWord_r_fixed f _).trans rfl
theorem mtlo (f : RFields) : Statement (.mtlo f) := (toWord_r_fixed f _).trans rfl
theorem mult (f : RFields) : Statement (.mult f) := (toWord_r_fixed f _).trans rfl
theorem multu (f : RFields) : Statement (.multu f) := (toWord_r_fixed f _).trans rfl
theorem div (f : RFields) : Statement (.div f) := (toWord_r_fixed f _).trans rfl
theorem divu (f : RFields) : Statement (.divu f) := (toWord_r_fixed f _).trans rfl
theorem add (f : RFields) : Statement (.add f) := (toWord_r_fixed f _).trans rfl
theorem addu (f : RFields) : Statement (.addu f) := (toWord_r_fixed f _).trans rfl
theorem sub (f : RFields) : Statement (.sub f) := (toWord_r_fixed f _).trans rfl
theorem subu (f : RFields) : Statement (.subu f) := (toWord_r_fixed f _).trans rfl
theorem and (f : RFields) : Statement (.and f) := (toWord_r_fixed f _).trans rfl
theorem or (f : RFields) : Statement (.or f) := (toWord_r_fixed f _).trans rfl
theorem xor (f : RFields) : Statement (.xor f) := (toWord_r_fixed f _).trans rfl
theorem nor (f : RFields) : Statement (.nor f) := (toWord_r_fixed f _).trans rfl
theorem slt (f : RFields) : Statement (.slt f) := (toWord_r_fixed f _).trans rfl
theorem sltu (f : RFields) : Statement (.sltu f) := (toWord_r_fixed f _).trans rfl
theorem beq (f : IFields) : Statement (.beq f) := (toWord_i_fixed f _).trans rfl
theorem bne (f : IFields) : Statement (.bne f) := (toWord_i_fixed f _).trans rfl
theorem blez (f : IFields) : Statement (.blez f) := (toWord_i_fixed f _).trans rfl
theorem bgtz (f : IFields) : Statement (.bgtz f) := (toWord_i_fixed f _).trans rfl
theorem addi (f : IFields) : Statement (.addi f) := (toWord_i_fixed f _).trans rfl
theorem addiu (f : IFields) : Statement (.addiu f) := (toWord_i_fixed f _).trans rfl
theorem slti (f : IFields) : Statement (.slti f) := (toWord_i_fixed f _).trans rfl
theorem sltiu (f : IFields) : Statement (.sltiu f) := (toWord_i_fixed f _).trans rfl
theorem andi (f : IFields) : Statement (.andi f) := (toWord_i_fixed f _).trans rfl
theorem ori (f : IFields) : Statement (.ori f) := (toWord_i_fixed f _).trans rfl
theorem xori (f : IFields) : Statement (.xori f) := (toWord_i_fixed f _).trans rfl
theorem lui (f : IFields) : Statement (.lui f) := (toWord_i_fixed f _).trans rfl
theorem lb (f : IFields) : Statement (.lb f) := (toWord_i_fixed f _).trans rfl
theorem lh (f : IFields) : Statement (.lh f) := (toWord_i_fixed f _).trans rfl
theorem lw (f : IFields) : Statement (.lw f) := (toWord_i_fixed f _).trans rfl
theorem lbu (f : IFields) : Statement (.lbu f) := (toWord_i_fixed f _).trans rfl
theorem lhu (f : IFields) : Statement (.lhu f) := (toWord_i_fixed f _).trans rfl
theorem sb (f : IFields) : Statement (.sb f) := (toWord_i_fixed f _).trans rfl
theorem sh (f : IFields) : Statement (.sh f) := (toWord_i_fixed f _).trans rfl
theorem sw (f : IFields) : Statement (.sw f) := (toWord_i_fixed f _).trans rfl

end Sys2Proof.Laws.TableRow
end

