-- ==== Sys2Proof/Laws/Results.lean ====
section
/-! SUPPORT. From the shared operation a meaning is made of to what an instruction is said to do: one
lemma for each of the predicates of Safety.lean. -/

namespace Sys2Proof.Machine

variable {i : Instr} {s : State}

theorem writesReg_of {rd : RegIdx} {v : Word} (h : exec i s = writeAndRetire rd v s) :
    WritesReg i s rd v :=
  ⟨_, h, fun r => by simp [State.readReg_writeReg], rfl, ⟨rfl, rfl⟩, fun _ => rfl, ⟨rfl, rfl⟩,
    rfl, rfl, rfl⟩

theorem writesHiLo_of {a b : Word} (h : exec i s = writeHiLo a b s) : WritesHiLo i s a b :=
  ⟨_, h, rfl, rfl, rfl, fun _ => rfl, fun _ => rfl, ⟨rfl, rfl⟩, rfl, rfl, rfl⟩

theorem jumpsTo_of {p : Word} (h : exec i s = retireTo p s) : JumpsTo i s p :=
  ⟨_, h, rfl, fun _ => rfl, ⟨rfl, rfl⟩, fun _ => rfl, ⟨rfl, rfl⟩, rfl, rfl, rfl⟩

theorem traps_of {k : Fault} (h : exec i s = raise k s) : Traps i s k :=
  ⟨_, h, s.takeFault_taken k⟩

/-- Where a load completes and where it traps (R51, R123). -/
theorem load_result {n : Nat} {value : Memory → Nat → Word} {ea : Word} {rt : RegIdx}
    (h : exec i s = load n value ea rt s) :
    (ea.toNat % n = 0 → ea.toNat + n ≤ s.cfg.memSize → WritesReg i s rt (value s.mem ea.toNat)) ∧
    (ea.toNat % n ≠ 0 → Traps i s (.memoryFault .misaligned)) ∧
    (ea.toNat % n = 0 → s.cfg.memSize < ea.toNat + n → Traps i s (.memoryFault .outOfBounds)) := by
  refine ⟨fun a b => writesReg_of ?_, fun a => traps_of ?_, fun a b => traps_of ?_⟩
  · rw [h, load, s.accessFault_eq_none.2 ⟨a, b⟩]
  · rw [h, load, s.accessFault_eq_misaligned.2 a]
  · rw [h, load, s.accessFault_eq_outOfBounds.2 ⟨a, b⟩]

/-- Where a store completes and where it traps (R52, R123). -/
theorem store_result {n : Nat} {write : Memory → Nat → Word → Memory} {ea v sv : Word}
    (h : exec i s = store n write ea v sv s) :
    (ea.toNat % n = 0 → ea.toNat + n ≤ s.cfg.memSize →
      exec i s = .next (((s.setMem (write s.mem ea.toNat v)).watch ea sv).setPc (s.pc + 4#32))) ∧
    (ea.toNat % n ≠ 0 → Traps i s (.memoryFault .misaligned)) ∧
    (ea.toNat % n = 0 → s.cfg.memSize < ea.toNat + n → Traps i s (.memoryFault .outOfBounds)) := by
  refine ⟨fun a b => ?_, fun a => traps_of ?_, fun a b => traps_of ?_⟩
  · rw [h, store, s.accessFault_eq_none.2 ⟨a, b⟩]; simp [retire_eq]
  · rw [h, store, s.accessFault_eq_misaligned.2 a]
  · rw [h, store, s.accessFault_eq_outOfBounds.2 ⟨a, b⟩]

/-- An R-type word decodes as its table says (R65, R69, R74). -/
theorem encodedR_of {func : BitVec 6} {mk : RFields → Instr}
    (h : ∀ f, classifyR f func = .ok (mk f)) : EncodedR func mk := by
  intro lw rs rt rd shamt
  show (Raw.ofWord (Raw.r ⟨rs, rt, rd, shamt⟩ func).toWord).classify lw = _
  rw [ofWord_toWord_r]
  exact h _

/-- An I-type word decodes as its table says (R66, R69, R75). -/
theorem encodedI_of {op : BitVec 6} {mk : IFields → Instr} (h0 : op ≠ 0#6)
    (h : ∀ lw f, classifyI lw op f = .ok (mk f)) : EncodedI op mk := by
  intro lw rs rt imm
  show (Raw.ofWord (Raw.i op ⟨rs, rt, imm⟩).toWord).classify lw = _
  rw [ofWord_toWord_i _ _ h0]
  exact h _ _

/-- The bytes of a word read from memory are the bytes of memory (R46, R51). -/
theorem readWord_byte (m : Memory) (a k : Nat) (hk : k < 4) :
    (m.readWord a).extractLsb' (24 - 8 * k) 8 = m.read (a + k) := by
  have : k = 0 ∨ k = 1 ∨ k = 2 ∨ k = 3 := by omega
  unfold Memory.readWord
  rcases this with rfl | rfl | rfl | rfl <;>
  · apply BitVec.eq_of_getLsbD_eq
    intro i hi
    simp [wordOfBytes]
    grind

end Sys2Proof.Machine
end

