-- ==== Sys2Proof/Laws/Step.lean ====
section
/-! SUPPORT. What a step can do, said once (10_state R36 to R41), and the invariant over one
instruction's effect. -/

namespace Sys2Proof.Machine

variable {s t : State}

theorem State.fetch_eq_none : s.fetch = none ↔ s.accessFault s.pc 4 ≠ none := by
  unfold State.fetch; cases s.accessFault s.pc 4 <;> simp

theorem State.fetch_eq_some {w : Word} :
    s.fetch = some w ↔ s.accessFault s.pc 4 = none ∧ s.mem.readWord s.pc.toNat = w := by
  unfold State.fetch; cases s.accessFault s.pc 4 <;> simp

/-- A terminal engine stays as it is (R41). -/
theorem step_terminal (h : s.run ≠ .running) : step s = .next s := by
  unfold step; cases hr : s.run <;> simp_all

theorem step_stackOverflow (h : s.run = .running) (ho : s.stackOverflows = true) :
    step s = .next (s.takeFault .stackOverflow) := by
  simp [step, h, ho, raise_eq]

theorem step_badFetch (h : s.run = .running) (ho : s.stackOverflows = false)
    (hf : s.fetch = none) : step s = .next (s.takeFault .badFetch) := by
  simp [step, h, ho, hf, raise_eq]

theorem step_illegal {w : Word} {k : DecodeFault} (h : s.run = .running)
    (ho : s.stackOverflows = false) (hf : s.fetch = some w)
    (hd : decode s.cfg.lwOpcode w = .error k) :
    step s = .next (s.takeFault (.illegalInstruction k)) := by
  simp [step, h, ho, hf, hd, raise_eq]

theorem step_exec {w : Word} {i : Instr} (h : s.run = .running)
    (ho : s.stackOverflows = false) (hf : s.fetch = some w)
    (hd : decode s.cfg.lwOpcode w = .ok i) : step s = exec i s := by
  simp [step, h, ho, hf, hd]

/-- One more step of any host run. -/
theorem hostRun_succ (M : Host.Core) (k : Nat) (a b : M.State) (h : M.step a = .next b) :
    M.run (k + 1) a = M.run k b := by
  simp [Host.Core.run, h]

/-- One more step of this machine's run. -/
theorem coreRun_succ (k : Nat) (h : step s = .next t) : core.run (k + 1) s = core.run k t :=
  hostRun_succ core k s t h

/-- Every step is one of: nothing (terminal), a fault of the step itself, or an instruction. -/
theorem step_cases (h : step s = .next t) :
    (s.run ≠ .running ∧ t = s) ∨
    (s.run = .running ∧ ∃ k, t = s.takeFault k) ∨
    (s.run = .running ∧ ∃ w i, s.fetch = some w ∧ decode s.cfg.lwOpcode w = .ok i ∧
      exec i s = .next t) := by
  by_cases hr : s.run = .running
  · cases ho : s.stackOverflows with
    | true =>
      rw [step_stackOverflow hr ho] at h
      cases h
      exact .inr (.inl ⟨hr, _, rfl⟩)
    | false =>
      cases hf : s.fetch with
      | none =>
        rw [step_badFetch hr ho hf] at h
        cases h
        exact .inr (.inl ⟨hr, _, rfl⟩)
      | some w =>
        cases hd : decode s.cfg.lwOpcode w with
        | error k =>
          rw [step_illegal hr ho hf hd] at h
          cases h
          exact .inr (.inl ⟨hr, _, rfl⟩)
        | ok i =>
          rw [step_exec hr ho hf hd] at h
          exact .inr (.inr ⟨hr, w, i, rfl, hd, h⟩)
  · rw [step_terminal hr] at h
    cases h
    exact .inl ⟨hr, rfl⟩

end Sys2Proof.Machine
end

