-- ==== Sys2Proof/Tests/Slice0.lean ====
section
/-! SUPPORT. Tests.  Every expected value is taken from the spec: the encodings of 30_encoding, the
examples and vectors of 95_test_vectors (named V<n> there), and the rules.  The last part gives, for
every statement that has hypotheses, states and operands that meet them. -/

namespace Sys2Proof.Tests

open Sys2Proof.Machine

/-! ### Well-formedness: each check refuses an ill-formed term -/

theorem test_wf_accepts_standard : Config.standard.wf = true := by decide
theorem test_wf_refuses_no_memory : { Config.standard with memSize := 0 }.wf = false := by decide
theorem test_wf_accepts_full_memory :
    { Config.standard with memSize := 2 ^ 32 }.wf = true := by decide
theorem test_wf_refuses_too_much_memory :
    { Config.standard with memSize := 2 ^ 32 + 1 }.wf = false := by decide
theorem test_launch_accepts_full_program :
    { Config.standard with memSize := 8 }.launchOk 2 = true := by decide
theorem test_launch_refuses_long_program :
    { Config.standard with memSize := 8 }.launchOk 3 = false := by decide
theorem test_launch_refuses_misaligned_load :
    { Config.standard with loadAddr := 2 }.launchOk 1 = false := by decide
theorem test_launch_refuses_bad_config :
    { Config.standard with memSize := 0 }.launchOk 0 = false := by decide
theorem test_canonical_accepts : Instr.canonical (.mult ⟨1, 2, 0, 0⟩) = true := by decide
theorem test_canonical_refuses_nonzero_field :
    Instr.canonical (.mult ⟨1, 2, 31, 0⟩) = false := by decide

/-! ### Decoding: one word of every constructor, written out from the patterns of the rules

In the words, rs = 1, rt = 2, rd = 3, shamt = 4 and imm = 0x8005; ignored fields too are not zero. -/

/-- R92. -/
theorem test_decode_sll :
    decode .mips32 0b000000_00001_00010_00011_00100_000000#32 = .ok (.sll ⟨1, 2, 3, 4⟩) := by decide
/-- R93. -/
theorem test_decode_srl :
    decode .mips32 0b000000_00001_00010_00011_00100_000010#32 = .ok (.srl ⟨1, 2, 3, 4⟩) := by decide
/-- R94. -/
theorem test_decode_sra :
    decode .mips32 0b000000_00001_00010_00011_00100_000011#32 = .ok (.sra ⟨1, 2, 3, 4⟩) := by decide
/-- R95. -/
theorem test_decode_sllv :
    decode .mips32 0b000000_00001_00010_00011_00100_000100#32 = .ok (.sllv ⟨1, 2, 3, 4⟩) := by decide
/-- R96. -/
theorem test_decode_srlv :
    decode .mips32 0b000000_00001_00010_00011_00100_000110#32 = .ok (.srlv ⟨1, 2, 3, 4⟩) := by decide
/-- R97. -/
theorem test_decode_srav :
    decode .mips32 0b000000_00001_00010_00011_00100_000111#32 = .ok (.srav ⟨1, 2, 3, 4⟩) := by decide
/-- R121. -/
theorem test_decode_jr :
    decode .mips32 0b000000_00001_00010_00011_00100_001000#32 = .ok (.jr ⟨1, 2, 3, 4⟩) := by decide
/-- R122. -/
theorem test_decode_jalr :
    decode .mips32 0b000000_00001_00010_00011_00100_001001#32 = .ok (.jalr ⟨1, 2, 3, 4⟩) := by decide
/-- R133. -/
theorem test_decode_syscall :
    decode .mips32 0b000000_00001_00010_00011_00100_001100#32 = .ok (.syscall ⟨1, 2, 3, 4⟩) := by decide
/-- R103. -/
theorem test_decode_mfhi :
    decode .mips32 0b000000_00001_00010_00011_00100_010000#32 = .ok (.mfhi ⟨1, 2, 3, 4⟩) := by decide
/-- R104. -/
theorem test_decode_mthi :
    decode .mips32 0b000000_00001_00010_00011_00100_010001#32 = .ok (.mthi ⟨1, 2, 3, 4⟩) := by decide
/-- R105. -/
theorem test_decode_mflo :
    decode .mips32 0b000000_00001_00010_00011_00100_010010#32 = .ok (.mflo ⟨1, 2, 3, 4⟩) := by decide
/-- R106. -/
theorem test_decode_mtlo :
    decode .mips32 0b000000_00001_00010_00011_00100_010011#32 = .ok (.mtlo ⟨1, 2, 3, 4⟩) := by decide
/-- R99. -/
theorem test_decode_mult :
    decode .mips32 0b000000_00001_00010_00011_00100_011000#32 = .ok (.mult ⟨1, 2, 3, 4⟩) := by decide
/-- R100. -/
theorem test_decode_multu :
    decode .mips32 0b000000_00001_00010_00011_00100_011001#32 = .ok (.multu ⟨1, 2, 3, 4⟩) := by decide
/-- R101. -/
theorem test_decode_div :
    decode .mips32 0b000000_00001_00010_00011_00100_011010#32 = .ok (.div ⟨1, 2, 3, 4⟩) := by decide
/-- R102. -/
theorem test_decode_divu :
    decode .mips32 0b000000_00001_00010_00011_00100_011011#32 = .ok (.divu ⟨1, 2, 3, 4⟩) := by decide
/-- R81. -/
theorem test_decode_add :
    decode .mips32 0b000000_00001_00010_00011_00100_100000#32 = .ok (.add ⟨1, 2, 3, 4⟩) := by decide
/-- R82. -/
theorem test_decode_addu :
    decode .mips32 0b000000_00001_00010_00011_00100_100001#32 = .ok (.addu ⟨1, 2, 3, 4⟩) := by decide
/-- R83. -/
theorem test_decode_sub :
    decode .mips32 0b000000_00001_00010_00011_00100_100010#32 = .ok (.sub ⟨1, 2, 3, 4⟩) := by decide
/-- R84. -/
theorem test_decode_subu :
    decode .mips32 0b000000_00001_00010_00011_00100_100011#32 = .ok (.subu ⟨1, 2, 3, 4⟩) := by decide
/-- R85. -/
theorem test_decode_and :
    decode .mips32 0b000000_00001_00010_00011_00100_100100#32 = .ok (.and ⟨1, 2, 3, 4⟩) := by decide
/-- R86. -/
theorem test_decode_or :
    decode .mips32 0b000000_00001_00010_00011_00100_100101#32 = .ok (.or ⟨1, 2, 3, 4⟩) := by decide
/-- R87. -/
theorem test_decode_xor :
    decode .mips32 0b000000_00001_00010_00011_00100_100110#32 = .ok (.xor ⟨1, 2, 3, 4⟩) := by decide
/-- R88. -/
theorem test_decode_nor :
    decode .mips32 0b000000_00001_00010_00011_00100_100111#32 = .ok (.nor ⟨1, 2, 3, 4⟩) := by decide
/-- R89. -/
theorem test_decode_slt :
    decode .mips32 0b000000_00001_00010_00011_00100_101010#32 = .ok (.slt ⟨1, 2, 3, 4⟩) := by decide
/-- R90. -/
theorem test_decode_sltu :
    decode .mips32 0b000000_00001_00010_00011_00100_101011#32 = .ok (.sltu ⟨1, 2, 3, 4⟩) := by decide
/-- R117. -/
theorem test_decode_beq :
    decode .mips32 0b000100_00001_00010_1000000000000101#32 = .ok (.beq ⟨1, 2, 0x8005⟩) := by decide
/-- R118. -/
theorem test_decode_bne :
    decode .mips32 0b000101_00001_00010_1000000000000101#32 = .ok (.bne ⟨1, 2, 0x8005⟩) := by decide
/-- R119. -/
theorem test_decode_blez :
    decode .mips32 0b000110_00001_00010_1000000000000101#32 = .ok (.blez ⟨1, 2, 0x8005⟩) := by decide
/-- R120. -/
theorem test_decode_bgtz :
    decode .mips32 0b000111_00001_00010_1000000000000101#32 = .ok (.bgtz ⟨1, 2, 0x8005⟩) := by decide
/-- R108. -/
theorem test_decode_addi :
    decode .mips32 0b001000_00001_00010_1000000000000101#32 = .ok (.addi ⟨1, 2, 0x8005⟩) := by decide
/-- R109. -/
theorem test_decode_addiu :
    decode .mips32 0b001001_00001_00010_1000000000000101#32 = .ok (.addiu ⟨1, 2, 0x8005⟩) := by decide
/-- R110. -/
theorem test_decode_slti :
    decode .mips32 0b001010_00001_00010_1000000000000101#32 = .ok (.slti ⟨1, 2, 0x8005⟩) := by decide
/-- R111. -/
theorem test_decode_sltiu :
    decode .mips32 0b001011_00001_00010_1000000000000101#32 = .ok (.sltiu ⟨1, 2, 0x8005⟩) := by decide
/-- R112. -/
theorem test_decode_andi :
    decode .mips32 0b001100_00001_00010_1000000000000101#32 = .ok (.andi ⟨1, 2, 0x8005⟩) := by decide
/-- R113. -/
theorem test_decode_ori :
    decode .mips32 0b001101_00001_00010_1000000000000101#32 = .ok (.ori ⟨1, 2, 0x8005⟩) := by decide
/-- R114. -/
theorem test_decode_xori :
    decode .mips32 0b001110_00001_00010_1000000000000101#32 = .ok (.xori ⟨1, 2, 0x8005⟩) := by decide
/-- R115. -/
theorem test_decode_lui :
    decode .mips32 0b001111_00001_00010_1000000000000101#32 = .ok (.lui ⟨1, 2, 0x8005⟩) := by decide
/-- R124. -/
theorem test_decode_lb :
    decode .mips32 0b100000_00001_00010_1000000000000101#32 = .ok (.lb ⟨1, 2, 0x8005⟩) := by decide
/-- R125. -/
theorem test_decode_lh :
    decode .mips32 0b100001_00001_00010_1000000000000101#32 = .ok (.lh ⟨1, 2, 0x8005⟩) := by decide
/-- R126. -/
theorem test_decode_lw :
    decode .mips32 0b100011_00001_00010_1000000000000101#32 = .ok (.lw ⟨1, 2, 0x8005⟩) := by decide
/-- R127. -/
theorem test_decode_lbu :
    decode .mips32 0b100100_00001_00010_1000000000000101#32 = .ok (.lbu ⟨1, 2, 0x8005⟩) := by decide
/-- R128. -/
theorem test_decode_lhu :
    decode .mips32 0b100101_00001_00010_1000000000000101#32 = .ok (.lhu ⟨1, 2, 0x8005⟩) := by decide
/-- R129. -/
theorem test_decode_sb :
    decode .mips32 0b101000_00001_00010_1000000000000101#32 = .ok (.sb ⟨1, 2, 0x8005⟩) := by decide
/-- R130. -/
theorem test_decode_sh :
    decode .mips32 0b101001_00001_00010_1000000000000101#32 = .ok (.sh ⟨1, 2, 0x8005⟩) := by decide
/-- R131. -/
theorem test_decode_sw :
    decode .mips32 0b101011_00001_00010_1000000000000101#32 = .ok (.sw ⟨1, 2, 0x8005⟩) := by decide

/-- D12a: with `LW_OPCODE = 34` the source's literal is `lw`, and 35 is unrecognized. -/
theorem test_decode_lw_sourceLiteral :
    decode .sourceLiteral 0b100010_00001_00010_1000000000000101#32 = .ok (.lw ⟨1, 2, 0x8005⟩) ∧
    decode .sourceLiteral 0b100011_00001_00010_1000000000000101#32 = .error .unknownOpcode := by
  decide
/-- V146. -/
theorem test_decode_opcode34 : decode .mips32 0x88000000#32 = .error .unknownOpcode := by decide
/-- V145. -/
theorem test_decode_regimm : decode .mips32 0x04010000#32 = .error .unknownOpcode := by decide
/-- V150. -/
theorem test_decode_break : decode .mips32 0x0000000D#32 = .error .unknownFunction := by decide
/-- E3: the ignored fields are kept, so that the word comes back. -/
theorem test_encode_keeps_ignored : encode .mips32 (.mult ⟨1, 2, 31, 0⟩) = 0x0022F818#32 := by decide
/-- R46: the most significant byte comes first. -/
theorem test_decodeBytes : decodeBytes .mips32 0x8C 0x22 0x00 0x04 = .ok (.lw ⟨1, 2, 4⟩) := by decide
theorem test_decodeTableWord : decodeTableWord 32 0x0320F809 = some (.jalr ⟨25, 0, 31, 0⟩) := by
  decide

/-! ### One step on the state of 95_test_vectors section 1 -/

/-- The configuration of the vectors. -/
def vecConfig : Config :=
  { Config.standard with memSize := 0x1000, stackTop := 0x800, stackLimit := 0 }

/-- The start state of a vector: the word at `pc`, and the registers and bytes its row lists. -/
def vec (w : Word) (regs : List (RegIdx × Word)) (bytes : List (Nat × Byte) := []) : State :=
  let s := { State.initial vecConfig with pc := 0x100, mem := Memory.writeWord [] 0x100 w }
  let s := regs.foldl (fun s r => s.writeReg r.1 r.2) s
  { s with mem := bytes.foldl (fun m b => m.write b.1 b.2) s.mem }

/-- The next state of `o` meets `p`. -/
def after (o : Result) (p : State → Bool) : Bool :=
  match o with
  | .next t => p t
  | _ => false

/-- `o` is `s` with the fault `k` taken, and nothing else changed. -/
def faultsWith (s : State) (o : Result) (k : Fault) : Bool :=
  after o fun t => decide (t = { s with run := .faulted k s.pc })

/-- V2. -/
theorem test_add_V2 :
    let s := vec 0x00221820 [(1, 0x7FFFFFFF), (2, 0x1)]
    faultsWith s (step s) .arithmeticFault = true := by decide
/-- V27. -/
theorem test_add_V27 :
    after (step (vec 0x00221820 [(1, 0x7FFFFFFF), (2, 0x80000000)])) (fun t =>
      t.readReg 3 == 0xFFFFFFFF && t.pc == 0x104 && t.run == .running) = true := by decide
/-- V6. -/
theorem test_addu_V6 :
    after (step (vec 0x00221821 [(1, 0xFFFFFFFF), (2, 0x1)])) (fun t =>
      t.readReg 3 == 0x00000000 && t.pc == 0x104 && t.run == .running) = true := by decide
/-- V25. -/
theorem test_addu_V25 :
    after (step (vec 0x00210821 [(1, 0x40000000)])) (fun t =>
      t.readReg 1 == 0x80000000 && t.pc == 0x104 && t.run == .running) = true := by decide
/-- V9. -/
theorem test_sub_V9 :
    let s := vec 0x00221822 [(1, 0x7FFFFFFF), (2, 0xFFFFFFFF)]
    faultsWith s (step s) .arithmeticFault = true := by decide
/-- V7. -/
theorem test_sub_V7 :
    after (step (vec 0x00221822 [(1, 0x5), (2, 0xA)])) (fun t =>
      t.readReg 3 == 0xFFFFFFFB && t.pc == 0x104 && t.run == .running) = true := by decide
/-- V11. -/
theorem test_subu_V11 :
    after (step (vec 0x00221823 [(1, 0x80000000), (2, 0x1)])) (fun t =>
      t.readReg 3 == 0x7FFFFFFF && t.pc == 0x104 && t.run == .running) = true := by decide
/-- V12. -/
theorem test_subu_V12 :
    after (step (vec 0x00221823 [(1, 0x0), (2, 0x1)])) (fun t =>
      t.readReg 3 == 0xFFFFFFFF && t.pc == 0x104 && t.run == .running) = true := by decide
/-- V13. -/
theorem test_and_V13 :
    after (step (vec 0x00221824 [(1, 0xF0F0F0F0), (2, 0xFF00FF00)])) (fun t =>
      t.readReg 3 == 0xF000F000 && t.pc == 0x104 && t.run == .running) = true := by decide
/-- V14. -/
theorem test_or_V14 :
    after (step (vec 0x00221825 [(1, 0xF0F0F0F0), (2, 0xF0F0F0F)])) (fun t =>
      t.readReg 3 == 0xFFFFFFFF && t.pc == 0x104 && t.run == .running) = true := by decide
/-- V15. -/
theorem test_xor_V15 :
    after (step (vec 0x00221826 [(1, 0xFFFF0000), (2, 0xFF00FF00)])) (fun t =>
      t.readReg 3 == 0x00FFFF00 && t.pc == 0x104 && t.run == .running) = true := by decide
/-- V17. -/
theorem test_nor_V17 :
    after (step (vec 0x00221827 [(1, 0xF0F0F0F0), (2, 0xFFFF)])) (fun t =>
      t.readReg 3 == 0x0F0F0000 && t.pc == 0x104 && t.run == .running) = true := by decide
/-- V18. -/
theorem test_slt_V18 :
    after (step (vec 0x0022182A [(1, 0x80000000), (2, 0x7FFFFFFF)])) (fun t =>
      t.readReg 3 == 0x00000001 && t.pc == 0x104 && t.run == .running) = true := by decide
/-- V20. -/
theorem test_slt_V20 :
    after (step (vec 0x0022182A [(1, 0xFFFFFFFF), (2, 0x0)])) (fun t =>
      t.readReg 3 == 0x00000001 && t.pc == 0x104 && t.run == .running) = true := by decide
/-- V21. -/
theorem test_sltu_V21 :
    after (step (vec 0x0022182B [(1, 0x80000000), (2, 0x7FFFFFFF)])) (fun t =>
      t.readReg 3 == 0x00000000 && t.pc == 0x104 && t.run == .running) = true := by decide
/-- V22. -/
theorem test_sltu_V22 :
    after (step (vec 0x0022182B [(1, 0x0), (2, 0xFFFFFFFF)])) (fun t =>
      t.readReg 3 == 0x00000001 && t.pc == 0x104 && t.run == .running) = true := by decide
/-- V29. -/
theorem test_sll_V29 :
    after (step (vec 0x00021FC0 [(2, 0x3)])) (fun t =>
      t.readReg 3 == 0x80000000 && t.pc == 0x104 && t.run == .running) = true := by decide
/-- V30. -/
theorem test_sll_V30 :
    after (step (vec 0x00021800 [(2, 0xDEADBEEF)])) (fun t =>
      t.readReg 3 == 0xDEADBEEF && t.pc == 0x104 && t.run == .running) = true := by decide
/-- V32. -/
theorem test_srl_V32 :
    after (step (vec 0x00021FC2 [(2, 0xFFFFFFFF)])) (fun t =>
      t.readReg 3 == 0x00000001 && t.pc == 0x104 && t.run == .running) = true := by decide
/-- V31. -/
theorem test_srl_V31 :
    after (step (vec 0x00021902 [(2, 0x80000000)])) (fun t =>
      t.readReg 3 == 0x08000000 && t.pc == 0x104 && t.run == .running) = true := by decide
/-- V34. -/
theorem test_sra_V34 :
    after (step (vec 0x00021FC3 [(2, 0x80000000)])) (fun t =>
      t.readReg 3 == 0xFFFFFFFF && t.pc == 0x104 && t.run == .running) = true := by decide
/-- V35. -/
theorem test_sra_V35 :
    after (step (vec 0x00021FC3 [(2, 0x7FFFFFFF)])) (fun t =>
      t.readReg 3 == 0x00000000 && t.pc == 0x104 && t.run == .running) = true := by decide
/-- V36. -/
theorem test_sllv_V36 :
    after (step (vec 0x00221804 [(1, 0x24), (2, 0x1)])) (fun t =>
      t.readReg 3 == 0x00000010 && t.pc == 0x104 && t.run == .running) = true := by decide
/-- V41. -/
theorem test_sllv_V41 :
    after (step (vec 0x00210804 [(1, 0x3)])) (fun t =>
      t.readReg 1 == 0x00000018 && t.pc == 0x104 && t.run == .running) = true := by decide
/-- V38. -/
theorem test_srlv_V38 :
    after (step (vec 0x00221806 [(1, 0xFFFFFFE8), (2, 0xFF000000)])) (fun t =>
      t.readReg 3 == 0x00FF0000 && t.pc == 0x104 && t.run == .running) = true := by decide
/-- V40. -/
theorem test_srav_V40 :
    after (step (vec 0x00221807 [(1, 0x3F), (2, 0x80000000)])) (fun t =>
      t.readReg 3 == 0xFFFFFFFF && t.pc == 0x104 && t.run == .running) = true := by decide
/-- V39. -/
theorem test_srav_V39 :
    after (step (vec 0x00221807 [(1, 0x8), (2, 0x80000000)])) (fun t =>
      t.readReg 3 == 0xFF800000 && t.pc == 0x104 && t.run == .running) = true := by decide
/-- V47. -/
theorem test_mult_V47 :
    after (step ({ vec 0x00220018 [(1, 0x80000000), (2, 0xFFFFFFFF)] with hi := 0x11111111, lo := 0x22222222 })) (fun t =>
      t.hi == 0x00000000 && t.lo == 0x80000000 && t.pc == 0x104 && t.run == .running) = true := by decide
/-- V48. -/
theorem test_mult_V48 :
    after (step ({ vec 0x00220018 [(1, 0xFFFFFFFE), (2, 0x3)] with hi := 0x11111111, lo := 0x22222222 })) (fun t =>
      t.hi == 0xFFFFFFFF && t.lo == 0xFFFFFFFA && t.pc == 0x104 && t.run == .running) = true := by decide
/-- V49. -/
theorem test_multu_V49 :
    after (step ({ vec 0x00220019 [(1, 0xFFFFFFFF), (2, 0xFFFFFFFF)] with hi := 0x11111111, lo := 0x22222222 })) (fun t =>
      t.hi == 0xFFFFFFFE && t.lo == 0x00000001 && t.pc == 0x104 && t.run == .running) = true := by decide
/-- V50. -/
theorem test_multu_V50 :
    after (step ({ vec 0x00220019 [(1, 0x80000000), (2, 0x2)] with hi := 0x11111111, lo := 0x22222222 })) (fun t =>
      t.hi == 0x00000001 && t.lo == 0x00000000 && t.pc == 0x104 && t.run == .running) = true := by decide
/-- V54. -/
theorem test_div_V54 :
    after (step ({ vec 0x0022001A [(1, 0xFFFFFFF9), (2, 0x2)] with hi := 0x11111111, lo := 0x22222222 })) (fun t =>
      t.hi == 0xFFFFFFFF && t.lo == 0xFFFFFFFD && t.pc == 0x104 && t.run == .running) = true := by decide
/-- V56. -/
theorem test_div_V56 :
    after (step ({ vec 0x0022001A [(1, 0x80000000), (2, 0xFFFFFFFF)] with hi := 0x11111111, lo := 0x22222222 })) (fun t =>
      t.hi == 0x00000000 && t.lo == 0x80000000 && t.pc == 0x104 && t.run == .running) = true := by decide
/-- V57. -/
theorem test_div_V57 :
    after (step ({ vec 0x0022001A [(1, 0x5), (2, 0x0)] with hi := 0x11111111, lo := 0x22222222 })) (fun t =>
      t.hi == 0x00000000 && t.lo == 0x00000000 && t.pc == 0x104 && t.run == .running) = true := by decide
/-- V60. -/
theorem test_divu_V60 :
    after (step ({ vec 0x0022001B [(1, 0xFFFFFFFF), (2, 0x2)] with hi := 0x11111111, lo := 0x22222222 })) (fun t =>
      t.hi == 0x00000001 && t.lo == 0x7FFFFFFF && t.pc == 0x104 && t.run == .running) = true := by decide
/-- V63. -/
theorem test_divu_V63 :
    after (step ({ vec 0x0022001B [(1, 0x5), (2, 0x0)] with hi := 0x11111111, lo := 0x22222222 })) (fun t =>
      t.hi == 0x00000000 && t.lo == 0x00000000 && t.pc == 0x104 && t.run == .running) = true := by decide
/-- V66. -/
theorem test_mfhi_V66 :
    after (step ({ vec 0x00001810 [] with hi := 0x12345678 })) (fun t =>
      t.readReg 3 == 0x12345678 && t.pc == 0x104 && t.run == .running) = true := by decide
/-- V67. -/
theorem test_mflo_V67 :
    after (step ({ vec 0x00000012 [] with lo := 0x5 })) (fun t =>
      t.readReg 0 == 0x00000000 && t.pc == 0x104 && t.run == .running) = true := by decide
/-- V68. -/
theorem test_mthi_V68 :
    after (step ({ vec 0x00200011 [(1, 0xCAFEF00D)] with lo := 0x7 })) (fun t =>
      t.hi == 0xCAFEF00D && t.pc == 0x104 && t.run == .running) = true := by decide
/-- V69. -/
theorem test_mtlo_V69 :
    after (step ({ vec 0x00000013 [] with hi := 0x3, lo := 0x9 })) (fun t =>
      t.lo == 0x00000000 && t.pc == 0x104 && t.run == .running) = true := by decide
/-- V72. -/
theorem test_addi_V72 :
    let s := vec 0x20220001 [(1, 0x7FFFFFFF)]
    faultsWith s (step s) .arithmeticFault = true := by decide
/-- V74. -/
theorem test_addi_V74 :
    let s := vec 0x20200001 [(1, 0x7FFFFFFF)]
    faultsWith s (step s) .arithmeticFault = true := by decide
/-- V77. -/
theorem test_addiu_V77 :
    after (step (vec 0x24228000 [(1, 0x0)])) (fun t =>
      t.readReg 2 == 0xFFFF8000 && t.pc == 0x104 && t.run == .running) = true := by decide
/-- V75. -/
theorem test_addiu_V75 :
    after (step (vec 0x24220001 [(1, 0x7FFFFFFF)])) (fun t =>
      t.readReg 2 == 0x80000000 && t.pc == 0x104 && t.run == .running) = true := by decide
/-- V80. -/
theorem test_slti_V80 :
    after (step (vec 0x28227FFF [(1, 0x80000000)])) (fun t =>
      t.readReg 2 == 0x00000001 && t.pc == 0x104 && t.run == .running) = true := by decide
/-- V78. -/
theorem test_slti_V78 :
    after (step (vec 0x2822FFFF [(1, 0xFFFFFFFE)])) (fun t =>
      t.readReg 2 == 0x00000001 && t.pc == 0x104 && t.run == .running) = true := by decide
/-- V82. -/
theorem test_sltiu_V82 :
    after (step (vec 0x2C228000 [(1, 0x1234)])) (fun t =>
      t.readReg 2 == 0x00000001 && t.pc == 0x104 && t.run == .running) = true := by decide
/-- V83. -/
theorem test_sltiu_V83 :
    after (step (vec 0x2C220001 [(1, 0x0)])) (fun t =>
      t.readReg 2 == 0x00000001 && t.pc == 0x104 && t.run == .running) = true := by decide
/-- V85. -/
theorem test_andi_V85 :
    after (step (vec 0x3022FFFF [(1, 0xFFFFFFFF)])) (fun t =>
      t.readReg 2 == 0x0000FFFF && t.pc == 0x104 && t.run == .running) = true := by decide
/-- V86. -/
theorem test_ori_V86 :
    after (step (vec 0x34228000 [(1, 0x0)])) (fun t =>
      t.readReg 2 == 0x00008000 && t.pc == 0x104 && t.run == .running) = true := by decide
/-- V87. -/
theorem test_xori_V87 :
    after (step (vec 0x3822FFFF [(1, 0xFFFFFFFF)])) (fun t =>
      t.readReg 2 == 0xFFFF0000 && t.pc == 0x104 && t.run == .running) = true := by decide
/-- V92. -/
theorem test_lui_V92 :
    after (step (vec 0x3C221234 [(1, 0xFFFFFFFF)])) (fun t =>
      t.readReg 2 == 0x12340000 && t.pc == 0x104 && t.run == .running) = true := by decide
/-- V93. -/
theorem test_beq_V93 :
    after (step (vec 0x10220002 [(1, 0x7), (2, 0x7)])) (fun t =>
      t.pc == 0x10C && t.run == .running) = true := by decide
/-- V94. -/
theorem test_beq_V94 :
    after (step (vec 0x10220002 [(1, 0x7), (2, 0x8)])) (fun t =>
      t.pc == 0x104 && t.run == .running) = true := by decide
/-- V99. -/
theorem test_bne_V99 :
    after (step (vec 0x1422FFFE [(1, 0x1), (2, 0x0)])) (fun t =>
      t.pc == 0xFC && t.run == .running) = true := by decide
/-- V100. -/
theorem test_bne_V100 :
    after (step (vec 0x14210005 [(1, 0x1)])) (fun t =>
      t.pc == 0x104 && t.run == .running) = true := by decide
/-- V103. -/
theorem test_blez_V103 :
    after (step (vec 0x18200003 [(1, 0x80000000)])) (fun t =>
      t.pc == 0x110 && t.run == .running) = true := by decide
/-- V104. -/
theorem test_blez_V104 :
    after (step (vec 0x18200003 [(1, 0x1)])) (fun t =>
      t.pc == 0x104 && t.run == .running) = true := by decide
/-- V105. -/
theorem test_bgtz_V105 :
    after (step (vec 0x1C200003 [(1, 0x7FFFFFFF)])) (fun t =>
      t.pc == 0x110 && t.run == .running) = true := by decide
/-- V106. -/
theorem test_bgtz_V106 :
    after (step (vec 0x1C200003 [(1, 0x80000000)])) (fun t =>
      t.pc == 0x104 && t.run == .running) = true := by decide
/-- V109. -/
theorem test_jr_V109 :
    after (step (vec 0x00200008 [(1, 0x102)])) (fun t =>
      t.pc == 0x102 && t.run == .running) = true := by decide
/-- V108. -/
theorem test_jr_V108 :
    after (step (vec 0x03E00008 [(31, 0x10)])) (fun t =>
      t.pc == 0x10 && t.run == .running) = true := by decide
/-- V111. -/
theorem test_jalr_V111 :
    after (step (vec 0x00200809 [(1, 0x200)])) (fun t =>
      t.readReg 1 == 0x00000104 && t.pc == 0x200 && t.run == .running) = true := by decide
/-- V112. -/
theorem test_jalr_V112 :
    after (step (vec 0x00200009 [(1, 0x40)])) (fun t =>
      t.readReg 0 == 0x00000000 && t.pc == 0x40 && t.run == .running) = true := by decide
/-- V118. -/
theorem test_lw_V118 :
    let s := vec 0x8C220000 [(1, 0x1002)]
    faultsWith s (step s) (.memoryFault .misaligned) = true := by decide
/-- V119. -/
theorem test_lw_V119 :
    after (step (vec 0x8C220008 [(1, 0xFFFFFFFC)] [(0x4, 0xAA), (0x5, 0xBB), (0x6, 0xCC), (0x7, 0xDD)])) (fun t =>
      t.readReg 2 == 0xAABBCCDD && t.pc == 0x104 && t.run == .running) = true := by decide
/-- V122. -/
theorem test_lb_V122 :
    after (step (vec 0x80220003 [(1, 0x200)] [(0x200, 0x12), (0x201, 0x34), (0x202, 0x56), (0x203, 0x7F)])) (fun t =>
      t.readReg 2 == 0x0000007F && t.pc == 0x104 && t.run == .running) = true := by decide
/-- V128. -/
theorem test_lb_V128 :
    after (step (vec 0x80220000 [(1, 0xFFF)] [(0xFFF, 0xAB)])) (fun t =>
      t.readReg 2 == 0xFFFFFFAB && t.pc == 0x104 && t.run == .running) = true := by decide
/-- V121. -/
theorem test_lbu_V121 :
    after (step (vec 0x90220000 [(1, 0x200)] [(0x200, 0xFF)])) (fun t =>
      t.readReg 2 == 0x000000FF && t.pc == 0x104 && t.run == .running) = true := by decide
/-- V123. -/
theorem test_lh_V123 :
    after (step (vec 0x84220000 [(1, 0x200)] [(0x200, 0x80), (0x201, 0x01)])) (fun t =>
      t.readReg 2 == 0xFFFF8001 && t.pc == 0x104 && t.run == .running) = true := by decide
/-- V125. -/
theorem test_lh_V125 :
    let s := vec 0x84220001 [(1, 0x200)]
    faultsWith s (step s) (.memoryFault .misaligned) = true := by decide
/-- V124. -/
theorem test_lhu_V124 :
    after (step (vec 0x94220000 [(1, 0x200)] [(0x200, 0x80), (0x201, 0x01)])) (fun t =>
      t.readReg 2 == 0x00008001 && t.pc == 0x104 && t.run == .running) = true := by decide
/-- V126. -/
theorem test_lhu_V126 :
    let s := vec 0x94220000 [(1, 0xFFF)]
    faultsWith s (step s) (.memoryFault .misaligned) = true := by decide
/-- V130. -/
theorem test_sb_V130 :
    after (step (vec 0xA0220000 [(1, 0x201), (2, 0x123456FF)])) (fun t =>
      t.mem.read 0x200 == 0x00 && t.mem.read 0x201 == 0xFF && t.mem.read 0x202 == 0x00 && t.mem.read 0x203 == 0x00 && t.pc == 0x104 && t.run == .running) = true := by decide
/-- V136. -/
theorem test_sb_V136 :
    let s := vec 0xA0220000 [(1, 0xFFFFFFFF), (2, 0x1)]
    faultsWith s (step s) (.memoryFault .outOfBounds) = true := by decide
/-- V131. -/
theorem test_sh_V131 :
    after (step (vec 0xA4220002 [(1, 0x200), (2, 0xCAFEBABE)])) (fun t =>
      t.mem.read 0x200 == 0x00 && t.mem.read 0x201 == 0x00 && t.mem.read 0x202 == 0xBA && t.mem.read 0x203 == 0xBE && t.pc == 0x104 && t.run == .running) = true := by decide
/-- V134. -/
theorem test_sh_V134 :
    let s := vec 0xA4220000 [(1, 0xFFF), (2, 0x1)]
    faultsWith s (step s) (.memoryFault .misaligned) = true := by decide
/-- V132. -/
theorem test_sw_V132 :
    after (step (vec 0xAC220000 [(1, 0x200), (2, 0x12345678)])) (fun t =>
      t.mem.read 0x200 == 0x12 && t.mem.read 0x201 == 0x34 && t.mem.read 0x202 == 0x56 && t.mem.read 0x203 == 0x78 && t.pc == 0x104 && t.run == .running) = true := by decide
/-- V133. -/
theorem test_sw_V133 :
    let s := vec 0xAC220002 [(1, 0x200), (2, 0x1)]
    faultsWith s (step s) (.memoryFault .misaligned) = true := by decide

/-- The vector state of an instruction word with a settled syscall answer and a watch. -/
def vecHost (w : Word) (regs : List (RegIdx × Word)) (answers : List SyscallAnswer)
    (watch : Option MmioWatch := none) : State :=
  { vec w regs with hostAnswers := answers, cfg := { vecConfig with mmioWatch := watch } }

/-- V140: the host answers `Halt`. -/
theorem test_syscall_V140 :
    after (step (vecHost 0x0000000C [(2, 0xA)] [.halt])) (fun t =>
      t.pc == 0x104 && t.run == .halted && t.readReg 2 == 0xA && t.hostDraws == 1) = true := by
  decide
/-- V141, with an answer that changes `x[2]`. -/
theorem test_syscall_result :
    after (step (vecHost 0x03FFFFCC [(2, 0x1), (4, 0x2A)] [.result 0x77, .halt])) (fun t =>
      t.pc == 0x104 && t.run == .running && t.readReg 2 == 0x77 &&
        t.hostAnswers == [.halt]) = true := by decide

/-- Program P7: `sb` to `OUT_ADDR` also writes memory. -/
theorem test_watch_output :
    after (step (vecHost 0xA0080F00 [(8, 0x148)] [] (some ⟨0xF00, 0xF04⟩))) (fun t =>
      t.out == [0x48] && t.mem.read 0xF00 == 0x48 && t.run == .running) = true := by decide
/-- Program P7: `sw` of 1 to `HALT_ADDR` retires and halts. -/
theorem test_watch_halt :
    after (step (vecHost 0xAC090F04 [(9, 1)] [] (some ⟨0xF00, 0xF04⟩))) (fun t =>
      t.run == .halted && t.pc == 0x104 && t.mem.read 0xF07 == 1 && t.out == []) = true := by
  decide
/-- R58: a store that covers `HALT_ADDR` but does not start there triggers nothing. -/
theorem test_watch_exact_address :
    after (step (vecHost 0xAC090F04 [(9, 1)] [] (some ⟨0xF05, 0xF07⟩))) (fun t =>
      t.run == .running && t.out == []) = true := by decide

/-- V143. -/
theorem test_step_V143 :
    let s := vec 0x08000000 []
    faultsWith s (step s) (.illegalInstruction .unknownOpcode) = true := by decide
/-- V151. -/
theorem test_step_V151 :
    let s := vec 0x0000000F []
    faultsWith s (step s) (.illegalInstruction .unknownFunction) = true := by decide

/-- A vector state with another pc and `STACK_LIMIT`. -/
def vecAt (w pc limit : Word) (regs : List (RegIdx × Word)) : State :=
  { vec w regs with pc := pc, cfg := { vecConfig with stackLimit := limit } }

/-- V153. -/
theorem test_step_V153 :
    let s := vecAt 0x24080001 0x100 0x800 [(29, 0x7FF)]
    faultsWith s (step s) .stackOverflow = true := by decide
/-- V155: the comparison is unsigned. -/
theorem test_step_V155 :
    after (step (vecAt 0x24080001 0x100 0x800 [(29, 0x80000000)])) (fun t =>
      t.readReg 8 == 1 && t.run == .running) = true := by decide
/-- V156: the instruction that moves `sp` below the limit retires. -/
theorem test_step_V156 :
    after (step (vecAt 0x27BDFFFC 0x100 0x800 [(29, 0x800)])) (fun t =>
      t.readReg 29 == 0x7FC && t.pc == 0x104 && t.run == .running) = true := by decide
/-- V157. -/
theorem test_step_V157 :
    let s := vecAt 0 0x102 0 []
    faultsWith s (step s) .badFetch = true := by decide
/-- V159. -/
theorem test_step_V159 :
    let s := vecAt 0 0xFFFFFFFC 0 []
    faultsWith s (step s) .badFetch = true := by decide
/-- V160: the last word of memory can be fetched. -/
theorem test_step_V160 :
    after (step (vecAt 0 0xFFC 0 [])) (fun t => t.pc == 0x1000 && t.run == .running) = true := by
  decide
/-- V161: the stack check comes before the fetch. -/
theorem test_step_V161 :
    let s := vecAt 0 0x802 0x800 [(29, 0x7FF)]
    faultsWith s (step s) .stackOverflow = true := by decide

/-- `withFetchWord` places the word that the next step runs. -/
theorem test_withFetchWord :
    after (step (State.reset.withFetchWord 32 0x24080001)) (fun t =>
      t.readReg 8 == 1 && t.pc == 4) = true := by decide
/-- The memory forgets a byte that becomes 0, and keeps its addresses rising. -/
theorem test_memory_canonical :
    (((Memory.write [] 5 1).write 3 2).write 9 3).write 5 0 = [(3, 2), (9, 3)] ∧
    Memory.wf [(3, 2), (9, 3)] = true ∧ Memory.wf [(9, 3), (3, 2)] = false ∧
    Memory.wf [(3, 0)] = false := by decide
/-- R152: the program stands big-endian at `LOAD_ADDR`. -/
theorem test_launch_loads :
    (launch { Config.standard with loadAddr := 8 } [0x12345678]).map (·.mem) =
      some [(8, 0x12), (9, 0x34), (10, 0x56), (11, 0x78)] := by decide

/-! ### Witnesses: states and operands that meet the hypotheses of the statements -/

theorem after_next {o : Result} {p : State → Bool} (h : after o p = true) :
    ∃ t, o = .next t ∧ p t = true := by
  cases o with
  | next t => exact ⟨t, rfl, h⟩
  | fault r => exact absurd h (by simp [after])
  | refused r => exact absurd h (by simp [after])

/-- A state with `x[1] = a` and `x[2] = b`. -/
def two (a b : Word) : State := vec 0x00221820 [(1, a), (2, b)]

/-- The fields rs = 1, rt = 2, rd = 3. -/
def fR : RFields := ⟨1, 2, 3, 0⟩
/-- The fields rs = 1, rt = 2 with an immediate. -/
def fI (imm : Imm) : IFields := ⟨1, 2, imm⟩

theorem witness_EncodeOfDecodeIsIdentity :
    decode .mips32 0x0022F818 = .ok (.mult ⟨1, 2, 31, 0⟩) ∧
    (Instr.mult ⟨1, 2, 31, 0⟩).raw .mips32 = .r ⟨1, 2, 31, 0⟩ 24#6 ∧
    (Instr.lw ⟨1, 2, 4⟩).raw .sourceLiteral = .i 34#6 ⟨1, 2, 4⟩ := by decide

/-- The last word of memory, with `sp` equal to the limit. -/
def lastWord : State :=
  { vecAt 0 0xFFC 0x800 [(1, 5), (2, 10)] with mem := Memory.writeWord [] 0xFFC 0x00221820 }

theorem witness_StepRunsTheDecodedInstruction :
    lastWord.run = .running ∧
    lastWord.cfg.stackLimit.toNat ≤ (lastWord.readReg 29#5).toNat ∧
    lastWord.pc.toNat % 4 = 0 ∧ lastWord.pc.toNat + 4 ≤ lastWord.cfg.memSize ∧
    decode lastWord.cfg.lwOpcode (lastWord.mem.read lastWord.pc.toNat ++
      lastWord.mem.read (lastWord.pc.toNat + 1) ++ lastWord.mem.read (lastWord.pc.toNat + 2) ++
      lastWord.mem.read (lastWord.pc.toNat + 3)) = .ok (.add fR) := by decide

/-- One state for each clause: terminal, below the limit, misaligned pc, pc past memory, an illegal
word; `lastWord` above meets the last clause. -/
theorem witness_StepFollowsTheProtocol :
    { lastWord with run := .halted }.run ≠ .running ∧
    (let s := vecAt 0 0x100 0x800 [(29, 0x7FF)]
     s.run = .running ∧ (s.readReg 29#5).toNat < s.cfg.stackLimit.toNat) ∧
    (let s := vecAt 0 0x102 0x800 [(29, 0x800)]
     s.run = .running ∧ s.cfg.stackLimit.toNat ≤ (s.readReg 29#5).toNat ∧
       s.pc.extractLsb' 0 2 ≠ 0#2) ∧
    (let s := vecAt 0 0x1000 0x800 [(29, 0x800)]
     s.run = .running ∧ s.cfg.stackLimit.toNat ≤ (s.readReg 29#5).toNat ∧
       s.pc.extractLsb' 0 2 = 0#2 ∧ s.cfg.memSize < s.pc.toNat + 4) ∧
    (let s := { lastWord with mem := Memory.writeWord [] 0xFFC 0x08000000 }
     s.run = .running ∧ s.cfg.stackLimit.toNat ≤ (s.readReg 29#5).toNat ∧
       s.pc.extractLsb' 0 2 = 0#2 ∧ s.pc.toNat + 4 ≤ s.cfg.memSize ∧
       decode s.cfg.lwOpcode (s.mem.readWord s.pc.toNat) = .error .unknownOpcode) := by decide

theorem witness_FetchReadsTheBigEndianWord :
    lastWord.fetch = some 0x00221820 ∧
    (let s := vecAt 0 0xFFE 0x800 [(29, 0x800)]
     s.run = .running ∧ s.cfg.stackLimit.toNat ≤ (s.readReg 29#5).toNat ∧ s.pc.toNat % 4 ≠ 0) ∧
    (let s := vecAt 0 0x1000 0x800 [(29, 0x800)]
     s.run = .running ∧ s.cfg.stackLimit.toNat ≤ (s.readReg 29#5).toNat ∧
       s.cfg.memSize < s.pc.toNat + 4) := by decide

/-- V2: `add` overflows. -/
def overflowing : State := two 0x7FFFFFFF 1

theorem witness_FaultsArePreciseAndTerminal :
    ∃ t, overflowing.run = .running ∧ step overflowing = .next t ∧
      t.run = .faulted .arithmeticFault 0x100 := by
  obtain ⟨t, h, hp⟩ := after_next (o := step overflowing)
    (p := fun t => decide (t.run = .faulted .arithmeticFault 0x100)) (by decide)
  exact ⟨t, rfl, h, of_decide_eq_true hp⟩

theorem witness_TerminalStatesStay : { overflowing with run := .halted }.run ≠ .running := by decide

theorem witness_RunEndsInATerminalState :
    run 1 overflowing = some { overflowing with run := .faulted .arithmeticFault 0x100 } := by decide

theorem witness_InstructionsRaiseOnlyTheirFaults :
    ∃ t, overflowing.run = .running ∧ exec (.add fR) overflowing = .next t ∧
      t.run = .faulted .arithmeticFault 0x100 := by
  obtain ⟨t, h, hp⟩ := after_next (o := exec (.add fR) overflowing)
    (p := fun t => decide (t.run = .faulted .arithmeticFault 0x100)) (by decide)
  exact ⟨t, rfl, h, of_decide_eq_true hp⟩

/-- The next state halts, once by the host's answer and once by a watched store. -/
theorem witness_HaltsInExactlyTwoWays :
    (∃ t, exec (.syscall fR) (vecHost 0 [] [.halt]) = .next t ∧ t.run = .halted) ∧
    (∃ t, exec (.sb ⟨1, 2, 0⟩) (vecHost 0 [(1, 0xF04), (2, 1)] [] (some ⟨0xF00, 0xF04⟩)) =
      .next t ∧ t.run = .halted) := by
  refine ⟨?_, ?_⟩
  · obtain ⟨t, h, hp⟩ := after_next (o := exec (.syscall fR) (vecHost 0 [] [.halt]))
      (p := fun t => decide (t.run = .halted)) (by decide)
    exact ⟨t, h, of_decide_eq_true hp⟩
  · obtain ⟨t, h, hp⟩ := after_next
      (o := exec (.sb ⟨1, 2, 0⟩) (vecHost 0 [(1, 0xF04), (2, 1)] [] (some ⟨0xF00, 0xF04⟩)))
      (p := fun t => decide (t.run = .halted)) (by decide)
    exact ⟨t, h, of_decide_eq_true hp⟩

theorem two_inv : (two 5 10).Inv :=
  ⟨by decide, by decide, by decide, by decide, by decide, by decide⟩

/-- Also for NoStepChangesTheConfiguration. -/
theorem witness_EveryStepKeepsTheInvariant :
    ∃ t, (two 5 10).Inv ∧ step (two 5 10) = .next t ∧ t.readReg 3 = 15 := by
  obtain ⟨t, h, hp⟩ := after_next (o := step (two 5 10))
    (p := fun t => decide (t.readReg 3 = 15)) (by decide)
  exact ⟨t, two_inv, h, of_decide_eq_true hp⟩

/-- The engine launched with the one word `addiu $8, $0, 1`. -/
def launched : State :=
  { State.initial vecConfig with mem := Memory.writeWord [] 0 0x24080001 }

theorem launched_is : launch vecConfig [0x24080001] = some launched := by decide

theorem witness_ReachableStatesMeetTheInvariant :
    ∃ s t : State, launch vecConfig [0x24080001] = some s ∧
      core.run 1 { s with hostAnswers := [.halt] } = .next t := by
  obtain ⟨t, ht, -⟩ := after_next (o := step { launched with hostAnswers := [.halt] })
    (p := fun _ => true) (by decide)
  refine ⟨launched, t, launched_is, ?_⟩
  rw [coreRun_succ 0 ht]
  rfl

/-- An instruction of each clause: one that stores nothing, and a store. -/
theorem witness_OnlyStoresChangeMemory :
    (∃ t, exec (.addu fR) (two 5 10) = .next t) ∧ storeOf (two 5 10) (.addu fR) = none ∧
    (∃ t, exec (.sw (fI 4)) (two 0xFF8 10) = .next t) ∧
    storeOf (two 0xFF8 10) (.sw (fI 4)) = some (0xFFC, 4, 10) ∧ (two 0xFF8 10).mem.wf = true := by
  refine ⟨⟨_, rfl⟩, by decide, ?_, by decide, by decide⟩
  obtain ⟨t, h, -⟩ := after_next (o := exec (.sw (fI 4)) (two 0xFF8 10)) (p := fun _ => true)
    (by decide)
  exact ⟨t, h⟩

theorem witness_OnlyTheirInstructionsWriteHiLo :
    (∃ t, exec (.mtlo fR) (two 5 10) = .next t) ∧ writesHi (.mtlo fR) = false ∧
    (∃ t, exec (.mthi fR) (two 5 10) = .next t) ∧ writesLo (.mthi fR) = false :=
  ⟨⟨_, rfl⟩, rfl, ⟨_, rfl⟩, rfl⟩

theorem witness_OnlyTheDestinationRegisterChanges :
    (∃ t, exec (.addu fR) (two 5 10) = .next t) ∧ destReg (.addu fR) ≠ some 4 :=
  ⟨⟨_, rfl⟩, by decide⟩

theorem witness_WritesToRegisterZeroAreDiscarded :
    destReg (.addu ⟨1, 2, 0, 0⟩) = some 0#5 ∧
    (∃ t, exec (.addu ⟨1, 2, 0, 0⟩) (two 5 10) = .next t) ∧
    (∃ t, exec (withDest 7 (.addu ⟨1, 2, 0, 0⟩)) (two 5 10) = .next t) :=
  ⟨rfl, ⟨_, rfl⟩, ⟨_, rfl⟩⟩

/-- Also for OnlyWatchedStoresEmitOutput. -/
theorem witness_ThePcAdvancesByFour :
    redirectsPc (.addu fR) = false ∧ ∃ t, exec (.addu fR) (two 5 10) = .next t :=
  ⟨rfl, _, rfl⟩

/-- The edges of the signed range: 2^31 - 1, 2^31, -2^31 and -2^31 - 1, as a sum and a difference. -/
theorem witness_AddSubTrapExactlyOnSignedOverflow :
    (let s := two 0x7FFFFFFE 1
     (s.readReg fR.rs).toInt + (s.readReg fR.rt).toInt = 2 ^ 31 - 1) ∧
    (let s := two 0x7FFFFFFF 1
     (s.readReg fR.rs).toInt + (s.readReg fR.rt).toInt = 2 ^ 31) ∧
    (let s := two 0x80000001 0xFFFFFFFF
     (s.readReg fR.rs).toInt + (s.readReg fR.rt).toInt = -2 ^ 31) ∧
    (let s := two 0x80000000 0xFFFFFFFF
     (s.readReg fR.rs).toInt + (s.readReg fR.rt).toInt = -2 ^ 31 - 1) ∧
    (let s := two 0x7FFFFFFE 0xFFFFFFFF
     (s.readReg fR.rs).toInt - (s.readReg fR.rt).toInt = 2 ^ 31 - 1) ∧
    (let s := two 0 0x80000000
     (s.readReg fR.rs).toInt - (s.readReg fR.rt).toInt = 2 ^ 31) ∧
    (let s := two 0x80000001 1
     (s.readReg fR.rs).toInt - (s.readReg fR.rt).toInt = -2 ^ 31) ∧
    (let s := two 0x80000000 1
     (s.readReg fR.rs).toInt - (s.readReg fR.rt).toInt = -2 ^ 31 - 1) := by decide

theorem witness_SltSltuWriteTheComparison :
    ((two 0x80000000 0x7FFFFFFF).readReg fR.rs).toInt <
      ((two 0x80000000 0x7FFFFFFF).readReg fR.rt).toInt ∧
    ((two 5 5).readReg fR.rt).toInt ≤ ((two 5 5).readReg fR.rs).toInt ∧
    ((two 4 5).readReg fR.rs).toNat < ((two 4 5).readReg fR.rt).toNat ∧
    ((two 5 5).readReg fR.rt).toNat ≤ ((two 5 5).readReg fR.rs).toNat := by decide

/-- A divisor of -1 with a dividend next to -2^31, the overflowing pair, and a zero divisor. -/
theorem witness_SignedDivisionTruncatesTowardZero :
    (let s := two 0x80000001 0xFFFFFFFF
     (s.readReg fR.rt).toInt ≠ 0 ∧
       ¬ ((s.readReg fR.rs).toInt = -2 ^ 31 ∧ (s.readReg fR.rt).toInt = -1)) ∧
    (let s := two 0x80000000 0xFFFFFFFF
     (s.readReg fR.rs).toInt = -2 ^ 31 ∧ (s.readReg fR.rt).toInt = -1) ∧
    ((two 5 0).readReg fR.rt).toInt = 0 := by decide

theorem witness_UnsignedDivisionIsExact :
    ((two 5 1).readReg fR.rt).toNat ≠ 0 ∧ ((two 5 0).readReg fR.rt).toNat = 0 := by decide

theorem witness_AddiTrapsExactlyOnSignedOverflow :
    ((two 0x7FFFFFFE 0).readReg (fI 1).rs).toInt + (fI 1).imm.toInt = 2 ^ 31 - 1 ∧
    ((two 0x7FFFFFFF 0).readReg (fI 1).rs).toInt + (fI 1).imm.toInt = 2 ^ 31 ∧
    ((two 0x80008000 0).readReg (fI 0x8000).rs).toInt + (fI 0x8000).imm.toInt = -2 ^ 31 ∧
    ((two 0x80007FFF 0).readReg (fI 0x8000).rs).toInt + (fI 0x8000).imm.toInt = -2 ^ 31 - 1 := by
  decide

theorem witness_AddiuSltiSltiuSignExtend :
    ((two 0xFFFFFFFE 0).readReg 1).toInt < (fI 0xFFFF).imm.toInt ∧
    (fI 0xFFFF).imm.toInt ≤ ((two 0xFFFFFFFF 0).readReg 1).toInt ∧
    (((two 0xFFFFFFFE 0).readReg 1).toNat : Int) < (fI 0xFFFF).imm.toInt % 2 ^ 32 ∧
    (fI 0xFFFF).imm.toInt % 2 ^ 32 ≤ ((two 0xFFFFFFFF 0).readReg 1).toNat := by decide

theorem witness_BeqBneBranchOnEquality :
    (two 7 7).readReg (fI 2).rs = (two 7 7).readReg (fI 2).rt ∧
    (two 7 8).readReg (fI 2).rs ≠ (two 7 8).readReg (fI 2).rt := by decide

theorem witness_BlezBgtzBranchOnSign :
    ((two 0 0).readReg (fI 3).rs).toInt ≤ 0 ∧ ((two 0x80000000 0).readReg (fI 3).rs).toInt ≤ 0 ∧
    0 < ((two 1 0).readReg (fI 3).rs).toInt := by decide

/-- The last byte of memory and the first address past it. -/
theorem witness_ByteLoadsExtendTheByte :
    (effAddr (fI 0) (two 0xFFF 0)).toNat < (two 0xFFF 0).cfg.memSize ∧
    (two 0x1000 0).cfg.memSize ≤ (effAddr (fI 0) (two 0x1000 0)).toNat := by decide

/-- The last halfword, an odd address, and the first even address past memory. -/
theorem witness_HalfwordLoadsExtendTheHalfword :
    ((effAddr (fI 0) (two 0xFFE 0)).toNat % 2 = 0 ∧
      (effAddr (fI 0) (two 0xFFE 0)).toNat + 2 ≤ (two 0xFFE 0).cfg.memSize) ∧
    (effAddr (fI 0) (two 0xFFF 0)).toNat % 2 = 1 ∧
    ((effAddr (fI 0) (two 0x1000 0)).toNat % 2 = 0 ∧
      (two 0x1000 0).cfg.memSize < (effAddr (fI 0) (two 0x1000 0)).toNat + 2) := by decide

/-- The last word, a misaligned address, and an aligned word that ends past memory. -/
theorem witness_WordLoadReadsTheBigEndianWord :
    ((effAddr (fI 0) (two 0xFFC 0)).toNat % 4 = 0 ∧
      (effAddr (fI 0) (two 0xFFC 0)).toNat + 4 ≤ (two 0xFFC 0).cfg.memSize) ∧
    (effAddr (fI 0) (two 0xFFE 0)).toNat % 4 ≠ 0 ∧
    (let s := { two 0x1000 0 with cfg := { vecConfig with memSize := 0x1002 } }
     (effAddr (fI 0) s).toNat % 4 = 0 ∧ s.cfg.memSize < (effAddr (fI 0) s).toNat + 4) := by decide

theorem witness_MisalignedAccessesFault :
    (effAddr (fI 0) (two 0x201 0)).toNat % 2 ≠ 0 ∧ (effAddr (fI 0) (two 0x202 0)).toNat % 4 ≠ 0 ∧
    (let s := vecAt 0 0x102 0x800 [(29, 0x800)]
     s.run = .running ∧ s.cfg.stackLimit.toNat ≤ (s.readReg 29#5).toNat ∧ s.pc.toNat % 4 ≠ 0) := by
  decide

/-- The last byte, halfword and word of a canonical memory. -/
theorem witness_StoresWriteTheirOwnBytes :
    (two 0xFFC 0).mem.wf = true ∧
    (effAddr (fI 3) (two 0xFFC 0)).toNat + 1 ≤ (two 0xFFC 0).cfg.memSize ∧
    ((effAddr (fI 2) (two 0xFFC 0)).toNat % 2 = 0 ∧
      (effAddr (fI 2) (two 0xFFC 0)).toNat + 2 ≤ (two 0xFFC 0).cfg.memSize) ∧
    ((effAddr (fI 0) (two 0xFFC 0)).toNat % 4 = 0 ∧
      (effAddr (fI 0) (two 0xFFC 0)).toNat + 4 ≤ (two 0xFFC 0).cfg.memSize) ∧
    (two 0xFFC 0).cfg.mmioWatch = none := by decide

theorem witness_StoresOutsideMemoryFault :
    (two 0x1000 0).cfg.memSize < (effAddr (fI 0) (two 0x1000 0)).toNat + 1 ∧
    ((effAddr (fI 0) (two 0x1000 0)).toNat % 2 = 0 ∧
      (two 0x1000 0).cfg.memSize < (effAddr (fI 0) (two 0x1000 0)).toNat + 2) ∧
    (effAddr (fI 0) (two 0xFFF 0)).toNat % 2 = 1 ∧
    ((effAddr (fI 0) (two 0x1000 0)).toNat % 4 = 0 ∧
      (two 0x1000 0).cfg.memSize < (effAddr (fI 0) (two 0x1000 0)).toNat + 4) ∧
    (effAddr (fI 0) (two 0xFFE 0)).toNat % 4 ≠ 0 := by decide

/-- Stores of 1 to `HALT_ADDR`, which is also `OUT_ADDR` here, and to an unwatched address. -/
theorem witness_WatchedStoresEmitAndHalt :
    (let s := vecHost 0 [(1, 0xF00), (2, 1)] [] (some ⟨0xF00, 0xF00⟩)
     s.cfg.mmioWatch = some ⟨0xF00, 0xF00⟩ ∧ storeOf s (.sw (fI 0)) = some (0xF00, 4, 1) ∧
       (0xF00#32).toNat % 4 = 0 ∧ (0xF00#32).toNat + 4 ≤ s.cfg.memSize) ∧
    (let s := vecHost 0 [(1, 0xFFE), (2, 1)] [] (some ⟨0xF00, 0xF00⟩)
     s.cfg.mmioWatch = some ⟨0xF00, 0xF00⟩ ∧ storeOf s (.sh (fI 0)) = some (0xFFE, 2, 1) ∧
       (0xFFE#32).toNat % 2 = 0 ∧ (0xFFE#32).toNat + 2 ≤ s.cfg.memSize ∧
       (0xFFE#32) ≠ 0xF00) := by decide

theorem witness_AStoredWordReadsBack :
    (two 0xFFC 7).mem.wf = true ∧ (effAddr (fI 0) (two 0xFFC 7)).toNat % 4 = 0 ∧
    (effAddr (fI 0) (two 0xFFC 7)).toNat + 4 ≤ (two 0xFFC 7).cfg.memSize ∧
    ∃ t, exec (.sw (fI 0)) (two 0xFFC 7) = .next t := by
  refine ⟨by decide, by decide, by decide, ?_⟩
  obtain ⟨t, h, -⟩ := after_next (o := exec (.sw (fI 0)) (two 0xFFC 7)) (p := fun _ => true)
    (by decide)
  exact ⟨t, h⟩

/-- Also for SyscallAnswersComeFromTheHost. -/
theorem witness_SyscallAppliesTheHostsAnswer :
    (vecHost 0 [] [.result 7]).hostAnswer = .result 7 ∧
    (vecHost 0 [] [.halt]).hostAnswer = .halt ∧
    (vecHost 0 [] [.halt]).hostAnswers = [.halt] ∧ (vecHost 0 [] []).hostAnswers = [] :=
  ⟨rfl, rfl, rfl, rfl⟩

/-- A program that just fits, one word more, and a misaligned `LOAD_ADDR`. -/
theorem witness_LaunchLoadsTheProgram :
    (let c := { vecConfig with memSize := 12, loadAddr := 4 }
     c.wf = true ∧ c.loadAddr.toNat % 4 = 0 ∧
       c.loadAddr.toNat + 4 * [0x24080001#32, 0x0000000C#32].length ≤ c.memSize ∧
       c.memSize < c.loadAddr.toNat + 4 * [0#32, 0#32, 0#32].length) ∧
    { vecConfig with loadAddr := 2 }.loadAddr.toNat % 4 ≠ 0 := by decide

end Sys2Proof.Tests
end

/-! ### The destination register of an instruction (10_state R21)

What an instruction does depends on its destination field only in which register it writes:
`exec_withDest`.  R21 is the case of destination 0, whose write is discarded. -/

namespace Sys2Proof.Machine

/-- Two answers at `s` that differ at most in where a result goes, to `x[r]` or to `x[d]`: both take
the same fault, or both write the same value and go on at the same pc. -/
inductive SameButDest (s : State) (r d : RegIdx) : Result → Result → Prop where
  | fault (k : Fault) : SameButDest s r d (.next (s.takeFault k)) (.next (s.takeFault k))
  | write (v p : Word) :
      SameButDest s r d (.next ((s.writeReg r v).setPc p)) (.next ((s.writeReg d v).setPc p))

section
variable (s : State) (r d : RegIdx)

theorem writeAndRetire_sameButDest (v : Word) :
    SameButDest s r d (writeAndRetire r v s) (writeAndRetire d v s) :=
  .write v (s.pc + 4#32)

/-- The overflow check does not look at the destination (R81, R83, R108). -/
theorem trapOrWrite_sameButDest (x : Int) :
    SameButDest s r d (trapOrWrite r x s) (trapOrWrite d x s) := by
  unfold trapOrWrite
  cases fitsSigned x with
  | true => exact writeAndRetire_sameButDest s r d _
  | false => exact .fault .arithmeticFault

/-- The access check of a load does not look at the destination (R51, R123). -/
theorem load_sameButDest (n : Nat) (value : Memory → Nat → Word) (ea : Word) :
    SameButDest s r d (load n value ea r s) (load n value ea d s) := by
  unfold load
  cases s.accessFault ea n with
  | some k => exact .fault (.memoryFault k)
  | none => exact writeAndRetire_sameButDest s r d _

end

variable {i : Instr} {r : RegIdx}

/-- No operand is read through the destination field, and no fault depends on it. -/
theorem exec_withDest (hd : destReg i = some r) (hs : isSyscall i = false) (s : State)
    (d : RegIdx) : SameButDest s r d (exec i s) (exec (withDest d i) s) := by
  cases i with
  | jr | mthi | mtlo | mult | multu | div | divu | beq | bne | blez | bgtz | sb | sh | sw => cases hd
  | syscall => cases hs
  | add | sub | addi => cases hd; exact trapOrWrite_sameButDest s _ d _
  | lb | lh | lw | lbu | lhu => cases hd; exact load_sameButDest s _ d _ _ _
  | jalr f => cases hd; exact .write (s.pc + 4#32) (s.readReg f.rs)
  | _ => cases hd; exact writeAndRetire_sameButDest s _ d _

/-- The register a `syscall` writes is `x[2]` (R133, D22), so it is not the destination 0 of R21. -/
theorem isSyscall_eq_false_of_destReg_zero (h : destReg i = some 0#5) : isSyscall i = false := by
  cases i with
  | syscall => cases h
  | _ => rfl

/-- Settles O22: with destination 0 the instruction takes the fault it takes with destination `d`, or
its write is discarded and it goes on at the same pc. -/
theorem writesToRegisterZeroAreDiscarded : Obligations.WritesToRegisterZeroAreDiscarded := by
  unfold Obligations.WritesToRegisterZeroAreDiscarded
  refine ⟨State.readReg_zero, fun i s t t' d hd ht ht' => ?_⟩
  have same := exec_withDest hd (isSyscall_eq_false_of_destReg_zero hd) s d
  rw [ht, ht'] at same
  cases same with
  | fault k => exact ⟨s.readReg_takeFault k, rfl, rfl, rfl, rfl, rfl, rfl, rfl, rfl, rfl⟩
  | write v p =>
    rw [State.writeReg_zero]
    exact ⟨s.readReg_setPc p, rfl, rfl, rfl, rfl, rfl, rfl, rfl, rfl, rfl⟩

end Sys2Proof.Machine

/-! ### Fetches and misaligned accesses (20_memory R48, R53)

The checks of a step's first two phases, said about the state: `State.stackOverflows_eq_false_iff`
and `State.fetch_eq_none_iff`.  A trap of an instruction that does not redirect the pc is one of its
own faults, because an instruction that completes moves the pc: `mayRaise_of_traps`. -/

namespace Sys2Proof.Machine

/-- A word read from memory is the word of those bytes, and of no other bytes (R46, R51). -/
theorem Memory.readWord_eq_iff {m : Memory} {a : Nat} {w : Word} :
    m.readWord a = w ↔ ∀ k, k < 4 → w.extractLsb' (24 - 8 * k) 8 = m.read (a + k) := by
  constructor
  · rintro rfl
    exact readWord_byte m a
  · intro bytes
    have byte : ∀ k, k < 4 → m.read (a + k) = byteOfWord w k := fun k hk => (bytes k hk).symm
    calc m.readWord a
        = wordOfBytes (byteOfWord w 0) (byteOfWord w 1) (byteOfWord w 2) (byteOfWord w 3) := by
          rw [← byte 0 (by decide), ← byte 1 (by decide), ← byte 2 (by decide),
            ← byte 3 (by decide)]
          rfl
      _ = w := wordOfBytes_byteOfWord w

section
variable {s : State} {i : Instr} {k : Fault}

/-- `sp` is `x[29]` (D3), and it passes the check from the limit up (R37). -/
theorem State.stackOverflows_eq_false_iff :
    s.stackOverflows = false ↔ s.cfg.stackLimit.toNat ≤ (s.readReg 29#5).toNat := by
  rw [State.stackOverflows, decide_eq_false_iff_not, Nat.not_lt]
  rfl

theorem State.fetch_eq_none_iff :
    s.fetch = none ↔ s.pc.toNat % 4 ≠ 0 ∨ s.cfg.memSize < s.pc.toNat + 4 := by
  rw [State.fetch_eq_none, Ne, State.accessFault_eq_none, not_and_or, Nat.not_le]

theorem step_takes_badFetch (hrun : s.run = .running)
    (hsp : s.cfg.stackLimit.toNat ≤ (s.readReg 29#5).toNat)
    (hpc : s.pc.toNat % 4 ≠ 0 ∨ s.cfg.memSize < s.pc.toNat + 4) :
    ∃ t, step s = .next t ∧ FaultTaken s t .badFetch :=
  ⟨_, step_badFetch hrun (State.stackOverflows_eq_false_iff.2 hsp) (State.fetch_eq_none_iff.2 hpc),
    s.takeFault_taken .badFetch⟩

theorem not_faultTaken_of_pc_add_four {t : State} (hpc : t.pc = s.pc + 4#32) :
    ¬ FaultTaken s t k := by
  rintro ⟨-, hstay, -⟩
  have moved : s.pc + 4#32 ≠ s.pc := by simp
  exact moved (hpc.symm.trans hstay)

/-- R135 for the instructions that go on at `pc + 4`, at every state: completing is no trap, also where
the run state already records the fault `k`. -/
theorem mayRaise_of_traps (hp : redirectsPc i = false) (trap : Traps i s k) :
    mayRaise i k = true := by
  obtain ⟨t, ht, taken⟩ := trap
  cases exec_cases ht with
  | fault k' raises _ =>
    obtain ⟨hrun, -⟩ := taken
    cases hrun
    exact raises
  | jump _ _ _ redirects | link _ _ _ _ redirects => rw [hp] at redirects; cases redirects
  | reg | hiLo | store | syscall => exact absurd taken (not_faultTaken_of_pc_add_four rfl)

theorem load_misaligned {n : Nat} {value : Memory → Nat → Word} {ea : Word} {rt : RegIdx}
    (h : exec i s = load n value ea rt s) (ha : ea.toNat % n ≠ 0) :
    Traps i s (.memoryFault .misaligned) :=
  have ⟨_, misaligned, _⟩ := load_result h
  misaligned ha

theorem store_misaligned {n : Nat} {write : Memory → Nat → Word → Memory} {ea v sv : Word}
    (h : exec i s = store n write ea v sv s) (ha : ea.toNat % n ≠ 0) :
    Traps i s (.memoryFault .misaligned) :=
  have ⟨_, misaligned, _⟩ := store_result h
  misaligned ha

end

/-- Settles O8: the fetch is the checked read of a word, and a word is determined by its bytes. -/
theorem fetchReadsTheBigEndianWord : Obligations.FetchReadsTheBigEndianWord := by
  unfold Obligations.FetchReadsTheBigEndianWord
  refine fun s => ⟨fun w => ?_, step_takes_badFetch⟩
  rw [State.fetch_eq_some, State.accessFault_eq_none, Memory.readWord_eq_iff, and_assoc]

/-- Settles O46: `Misaligned` is the first check of a wider access, and no fault of a byte access. -/
theorem misalignedAccessesFault : Obligations.MisalignedAccessesFault := by
  unfold Obligations.MisalignedAccessesFault
  intro f s ea k
  refine ⟨fun odd => ⟨?lh, ?lhu, ?sh⟩, fun unaligned => ⟨?lw, ?sw⟩, ⟨?lb, ?lbu, ?sb⟩, ?fetch⟩
  case lh => exact load_misaligned rfl odd
  case lhu => exact load_misaligned rfl odd
  case sh => exact store_misaligned rfl odd
  case lw => exact load_misaligned rfl unaligned
  case sw => exact store_misaligned rfl unaligned
  case lb | lbu | sb => exact fun trap => nomatch mayRaise_of_traps rfl trap
  case fetch => exact fun hrun hsp hpc => step_takes_badFetch hrun hsp (.inl hpc)

end Sys2Proof.Machine

/-! ### Decoding loses no bit of a word (30_encoding R70)

A word is split into raw fields, and the raw fields select the instruction.  The first half is undone
by `toWord_ofWord`; the second is undone by `Instr.raw`, since every row of the two tables keeps the
fields and stands at its own func or opcode: `raw_of_classify`. -/

namespace Sys2Proof

variable {lw : LwOpcode} {i : Instr}

/-- R74: an instruction found in the R-type table has the fields and the func it was found by. -/
theorem raw_of_classifyR {f : RFields} {func : BitVec 6} (h : classifyR f func = .ok i) :
    i.raw lw = .r f func := by
  unfold classifyR at h
  split at h <;> cases h
  all_goals rfl

/-- R75: an instruction found in the I-type table has the fields and the opcode it was found by; for
`lw` that is the opcode the parameter `LW_OPCODE` gives (D12a). -/
theorem raw_of_classifyI {op : BitVec 6} {f : IFields} (h : classifyI lw op f = .ok i) :
    i.raw lw = .i op f := by
  unfold classifyI at h
  split at h
  case h_20 =>
    split at h
    case isTrue isLw => cases h; rw [isLw]; rfl
    case isFalse => cases h
  all_goals cases h; rfl

/-- The converse of `classify_raw`: the mnemonic is determined by the raw fields and determines them. -/
theorem raw_of_classify {r : Raw} (h : r.classify lw = .ok i) : i.raw lw = r := by
  cases r with
  | r f func => exact raw_of_classifyR h
  | i op f => exact raw_of_classifyI h

theorem encode_of_decode {w : Word} (h : decode lw w = .ok i) : encode lw i = w :=
  calc (i.raw lw).toWord
      = (Raw.ofWord w).toWord := congrArg Raw.toWord (raw_of_classify h)
    _ = w := toWord_ofWord w

/-- Settles O2: decoding splits the word without loss, and the layout of an encoding is
`Raw.toWord` of the instruction's raw fields. -/
theorem encodeOfDecodeIsIdentity : Obligations.EncodeOfDecodeIsIdentity := by
  unfold Obligations.EncodeOfDecodeIsIdentity
  refine ⟨fun _ _ _ => encode_of_decode, fun lw i f func h => ?_, fun lw i op f h => ?_⟩
  · exact congrArg Raw.toWord h
  · exact congrArg Raw.toWord h

end Sys2Proof

/-! ### Register arithmetic and logic (40_alu_register R81 to R88)

`add` and `sub` differ only in the exact integer they hand to the overflow check, whose two outcomes
are `trapOrWrite_result`.  The others write a word computed from the two operands and cannot fault. -/

namespace Sys2Proof.Machine

/-- Where an operation with an overflow check completes, with the exact result, and where it traps
(R80, R81, R83, R108). -/
theorem trapOrWrite_result {i : Instr} {s : State} {rd : RegIdx} {x : Int}
    (h : exec i s = trapOrWrite rd x s) :
    (-2 ^ 31 ≤ x → x ≤ 2 ^ 31 - 1 → ∃ v, WritesReg i s rd v ∧ v.toInt = x) ∧
    (x < -2 ^ 31 ∨ 2 ^ 31 - 1 < x → Traps i s .arithmeticFault) := by
  obtain ⟨fits, hx⟩ | ⟨fits, hx⟩ := trapOrWrite_cases (s := s) rd x
  · have inRange := (fitsSigned_iff x).1 fits
    exact ⟨fun _ _ => ⟨_, writesReg_of (h.trans hx), toInt_ofInt_of_fits fits⟩,
      fun outside => by omega⟩
  · have outOfRange : ¬ (-2 ^ 31 ≤ x ∧ x ≤ 2 ^ 31 - 1) := by
      rw [← fitsSigned_iff, fits]
      exact Bool.false_ne_true
    exact ⟨fun low high => absurd ⟨low, high⟩ outOfRange, fun _ => traps_of (h.trans hx)⟩

/-- Settles O25: both instructions are the overflow check of their exact result. -/
theorem addSubTrapExactlyOnSignedOverflow : Obligations.AddSubTrapExactlyOnSignedOverflow := by
  unfold Obligations.AddSubTrapExactlyOnSignedOverflow
  refine ⟨encodedR_of fun _ => rfl, encodedR_of fun _ => rfl, fun f s => ?_⟩
  have ⟨addWrites, addTraps⟩ := trapOrWrite_result (i := .add f) (s := s) rfl
  have ⟨subWrites, subTraps⟩ := trapOrWrite_result (i := .sub f) (s := s) rfl
  exact ⟨addWrites, addTraps, subWrites, subTraps⟩

/-- Settles O26: the sum and the difference of two words are those of their values modulo 2^32. -/
theorem adduSubuWrap : Obligations.AdduSubuWrap := by
  unfold Obligations.AdduSubuWrap
  refine ⟨encodedR_of fun _ => rfl, encodedR_of fun _ => rfl, fun f s => ?_⟩
  refine ⟨⟨_, writesReg_of rfl, BitVec.toNat_add _ _⟩, ⟨_, writesReg_of rfl, ?subu⟩⟩
  case subu => rw [BitVec.toNat_sub, Nat.add_comm]

/-- Settles O27: each instruction writes the word operation of its name, whose bits are known; only the
complement of `nor` needs the bit to lie in the word. -/
theorem logicWorksBitByBit : Obligations.LogicWorksBitByBit := by
  unfold Obligations.LogicWorksBitByBit
  refine ⟨encodedR_of fun _ => rfl, encodedR_of fun _ => rfl, encodedR_of fun _ => rfl,
    encodedR_of fun _ => rfl, fun f s => ⟨?and, ?or, ?xor, ?nor⟩⟩
  case and => exact ⟨_, writesReg_of rfl, fun _ _ => BitVec.getLsbD_and⟩
  case or => exact ⟨_, writesReg_of rfl, fun _ _ => BitVec.getLsbD_or⟩
  case xor => exact ⟨_, writesReg_of rfl, fun _ _ => BitVec.getLsbD_xor⟩
  case nor =>
    refine ⟨_, writesReg_of rfl, fun k hk => ?_⟩
    rw [BitVec.getLsbD_not, BitVec.getLsbD_or, decide_eq_true hk, Bool.true_and]

end Sys2Proof.Machine

/-! ### Shifts (41_shifts R91 to R94)

A shift by a count is arithmetic with a power of two, whatever the count is and wherever it comes from.
An immediate shift writes the shifted word with the shamt field as its count (`immCount`), and cannot
fault. -/

namespace Sys2Proof.Machine

/-- R91: `<<` fills with zeros and drops what leaves the word. -/
theorem toNat_shiftLeft_eq_mul_mod (x : Word) (n : Nat) :
    (x <<< n).toNat = x.toNat * 2 ^ n % 2 ^ 32 := by
  rw [BitVec.toNat_shiftLeft, Nat.shiftLeft_eq]

/-- R91: `>>u` fills with zeros. -/
theorem toNat_ushiftRight_eq_div (x : Word) (n : Nat) : (x >>> n).toNat = x.toNat / 2 ^ n := by
  rw [BitVec.toNat_ushiftRight, Nat.shiftRight_eq_div_pow]

/-- R91: `>>s` fills with copies of the sign bit, so a negative value is rounded down too. -/
theorem toInt_sshiftRight_eq_div (x : Word) (n : Nat) :
    (x.sshiftRight n).toInt = x.toInt / 2 ^ n := by
  rw [BitVec.toInt_sshiftRight, Int.shiftRight_eq_div_pow, Nat.cast_pow, Nat.cast_ofNat]

/-- Settles O29: each instruction writes `x[rt]` shifted by its shamt, and the shifted word is the
product or the quotient by the power of two. -/
theorem immediateShiftsScaleByPowersOfTwo : Obligations.ImmediateShiftsScaleByPowersOfTwo := by
  unfold Obligations.ImmediateShiftsScaleByPowersOfTwo
  refine ⟨encodedR_of fun _ => rfl, encodedR_of fun _ => rfl, encodedR_of fun _ => rfl,
    fun f s => ⟨?sll, ?srl, ?sra⟩⟩
  case sll => exact ⟨_, writesReg_of rfl, toNat_shiftLeft_eq_mul_mod _ _⟩
  case srl => exact ⟨_, writesReg_of rfl, toNat_ushiftRight_eq_div _ _⟩
  case sra => exact ⟨_, writesReg_of rfl, toInt_sshiftRight_eq_div _ _⟩

end Sys2Proof.Machine

/-! ### Logical immediates and `lui` (43_alu_immediate R112 to R115)

The operand of `andi`, `ori` and `xori` is the immediate in bits 0 to 15 and 0 above; that of `lui` is
the immediate in the upper half and 0 below.  None of the four can fault. -/

namespace Sys2Proof.Machine

/-- R68: `zext_32` leaves zeros above the immediate. -/
theorem zeroImm_getLsbD_of_ge (imm : Imm) {k : Nat} (hk : 16 ≤ k) :
    (zeroImm imm).getLsbD k = false := by
  rw [zeroImm_getLsbD, BitVec.getLsbD_of_ge imm k hk]

/-- R68, R115: `imm ++ 0x0000` is the immediate shifted by half a word. -/
theorem upperImm_toNat (imm : Imm) : (upperImm imm).toNat = imm.toNat * 2 ^ 16 := by
  rw [upperImm, BitVec.toNat_append, BitVec.toNat_ofNat, Nat.zero_mod, Nat.or_zero, Nat.shiftLeft_eq]

/-- Settles O37: each instruction writes the word operation of its name on `x[rs]` and the zero-extended
immediate; 0 is absorbing for the and, and neutral for the or and the exclusive or. -/
theorem logicalImmediatesZeroExtend : Obligations.LogicalImmediatesZeroExtend := by
  unfold Obligations.LogicalImmediatesZeroExtend
  refine ⟨encodedI_of (by decide) fun _ _ => rfl, encodedI_of (by decide) fun _ _ => rfl,
    encodedI_of (by decide) fun _ _ => rfl, fun f s => ⟨?andi, ?ori, ?xori⟩⟩
  case andi =>
    refine ⟨_, writesReg_of rfl, fun k _ => ?low, fun k hk => ?high⟩
    case low => rw [BitVec.getLsbD_and, zeroImm_getLsbD]
    case high => rw [BitVec.getLsbD_and, zeroImm_getLsbD_of_ge _ hk, Bool.and_false]
  case ori =>
    refine ⟨_, writesReg_of rfl, fun k _ => ?low, fun k hk => ?high⟩
    case low => rw [BitVec.getLsbD_or, zeroImm_getLsbD]
    case high => rw [BitVec.getLsbD_or, zeroImm_getLsbD_of_ge _ hk, Bool.or_false]
  case xori =>
    refine ⟨_, writesReg_of rfl, fun k _ => ?low, fun k hk => ?high⟩
    case low => rw [BitVec.getLsbD_xor, zeroImm_getLsbD]
    case high => rw [BitVec.getLsbD_xor, zeroImm_getLsbD_of_ge _ hk, Bool.xor_false]

/-- Settles O38: `lui` writes its operand, whatever `rs` is. -/
theorem luiLoadsTheUpperHalf : Obligations.LuiLoadsTheUpperHalf := by
  unfold Obligations.LuiLoadsTheUpperHalf
  exact ⟨encodedI_of (by decide) fun _ _ => rfl,
    fun f _ => ⟨_, writesReg_of rfl, upperImm_toNat f.imm⟩⟩

end Sys2Proof.Machine

/-! ### Branches (44_control_transfer R116 to R118)

A branch is `branchIf` of its condition, and its two outcomes are `branchIf_result`. -/

namespace Sys2Proof.Machine

section
variable {i : Instr} {s : State} {p : Prop} [Decidable p] {imm : Imm}

/-- R116: where a branch goes when its condition holds, and where it goes otherwise. -/
theorem branchIf_result (h : exec i s = branchIf (decide p) imm s) :
    (p → JumpsTo i s (BitVec.ofInt 32 (s.pc.toNat + 4 + 4 * imm.toInt))) ∧
    (¬ p → JumpsTo i s (s.pc + 4#32)) := by
  rw [← branchTarget_eq]
  obtain ⟨holds, hb⟩ | ⟨fails, hb⟩ := branchIf_cases s (decide p) imm
  · exact ⟨fun _ => jumpsTo_of (h.trans hb), absurd (of_decide_eq_true holds)⟩
  · exact ⟨fun hp => absurd hp (of_decide_eq_false fails), fun _ => jumpsTo_of (h.trans hb)⟩

end

/-- Settles O39: the two branches differ only in their condition, and `bne` falls through where
`x[rs] ≠ x[rt]` fails. -/
theorem beqBneBranchOnEquality : Obligations.BeqBneBranchOnEquality := by
  unfold Obligations.BeqBneBranchOnEquality
  refine ⟨encodedI_of (by decide) fun _ _ => rfl, encodedI_of (by decide) fun _ _ => rfl,
    fun f s => ?_⟩
  have ⟨beqTaken, beqFallsThrough⟩ := branchIf_result (i := .beq f) (s := s) rfl
  have ⟨bneTaken, bneFallsThrough⟩ := branchIf_result (i := .bne f) (s := s) rfl
  exact ⟨beqTaken, beqFallsThrough, bneTaken, fun equal => bneFallsThrough (not_not_intro equal)⟩

end Sys2Proof.Machine

/-! ### Byte loads (45_load_store R124, R127)

A load of one byte is never misaligned, so where it completes and where it traps depends on
`MEMSIZE` alone: `byteLoad_result`.  `lb` and `lbu` differ in how the byte becomes a word. -/

namespace Sys2Proof.Machine

/-- R124: the sign extension keeps the byte's signed value. -/
theorem byteSigned_toInt (m : Memory) (a : Nat) : (byteSigned m a).toInt = (m.read a).toInt :=
  BitVec.toInt_signExtend_of_le (by decide)

/-- R127: the zero extension keeps the byte's unsigned value. -/
theorem byteUnsigned_toNat (m : Memory) (a : Nat) : (byteUnsigned m a).toNat = (m.read a).toNat :=
  BitVec.toNat_setWidth_of_le (by decide)

/-- R48, R49: a byte load has no alignment check to pass, and its only byte is the one at `ea`. -/
theorem byteLoad_result {i : Instr} {s : State} {value : Memory → Nat → Word} {ea : Word}
    {rt : RegIdx} (h : exec i s = load 1 value ea rt s) :
    (ea.toNat < s.cfg.memSize → WritesReg i s rt (value s.mem ea.toNat)) ∧
    (s.cfg.memSize ≤ ea.toNat → Traps i s (.memoryFault .outOfBounds)) := by
  have aligned : ea.toNat % 1 = 0 := Nat.mod_one _
  have ⟨writes, _, traps⟩ := load_result h
  exact ⟨writes aligned, fun outside => traps aligned (Nat.lt_succ_of_le outside)⟩

/-- Settles O43: both instructions are the load of one byte, each with its own extension. -/
theorem byteLoadsExtendTheByte : Obligations.ByteLoadsExtendTheByte := by
  unfold Obligations.ByteLoadsExtendTheByte
  refine ⟨encodedI_of (by decide) fun _ _ => rfl, encodedI_of (by decide) fun _ _ => rfl,
    fun f s => ?_⟩
  have ⟨lbWrites, lbTraps⟩ := byteLoad_result (i := .lb f) (s := s) rfl
  have ⟨lbuWrites, lbuTraps⟩ := byteLoad_result (i := .lbu f) (s := s) rfl
  exact ⟨fun inside => ⟨⟨_, lbWrites inside, byteSigned_toInt _ _⟩,
      ⟨_, lbuWrites inside, byteUnsigned_toNat _ _⟩⟩,
    fun outside => ⟨lbTraps outside, lbuTraps outside⟩⟩

end Sys2Proof.Machine

/-! ### Encoding and decoding (30_encoding R65 to R77)

The raw fields of an instruction survive the word they are put into, because no I-type row of the
table has opcode 0: `ofWord_toWord_raw`.  A word is illegal when its func or its opcode is missing from
the table of its format: `classifyR_eq_error_iff` and `classifyI_eq_error_iff`. -/

namespace Sys2Proof

/-- R75: opcode 0 marks the R-type words, so no I-type instruction has it. -/
theorem opcode_ne_zero_of_raw {lw : LwOpcode} {i : Instr} {op : BitVec 6} {f : IFields}
    (h : i.raw lw = .i op f) : op ≠ 0#6 := by
  cases i with
  | lw => cases h; exact lwCode_ne_zero lw
  | _ => cases h <;> decide

theorem ofWord_toWord_raw (lw : LwOpcode) (i : Instr) :
    Raw.ofWord (i.raw lw).toWord = i.raw lw := by
  cases h : i.raw lw with
  | r f func => exact ofWord_toWord_r f func
  | i op f => exact ofWord_toWord_i f op (opcode_ne_zero_of_raw h)

theorem decode_encode (lw : LwOpcode) (i : Instr) : decode lw (encode lw i) = .ok i :=
  calc (Raw.ofWord (i.raw lw).toWord).classify lw
      = (i.raw lw).classify lw := congrArg (·.classify lw) (ofWord_toWord_raw lw i)
    _ = .ok i := classify_raw lw i

/-- Settles O1: the raw fields are read back from the word, and the mnemonic from the raw fields. -/
theorem decodeOfEncodeIsIdentity : Obligations.DecodeOfEncodeIsIdentity := by
  unfold Obligations.DecodeOfEncodeIsIdentity
  exact decode_encode

/-- The func values of the table of R74. -/
def listedFuncs : List Nat :=
  [0, 2, 3, 4, 6, 7, 8, 9, 12, 16, 17, 18, 19, 24, 25, 26, 27, 32, 33, 34, 35, 36, 37, 38, 39, 42, 43]

/-- The opcodes of the table of R75, but for the parameter `LW_OPCODE`. -/
def listedOpcodes : List Nat :=
  [4, 5, 6, 7, 8, 9, 10, 11, 12, 13, 14, 15, 32, 33, 36, 37, 40, 41, 43]

/-- R76 for the R-type words: the table refuses exactly the func values it does not list. -/
theorem classifyR_eq_error_iff {f : RFields} {func : BitVec 6} {k : DecodeFault} :
    classifyR f func = .error k ↔ k = .unknownFunction ∧ func.toNat ∉ listedFuncs := by
  unfold classifyR
  split
  case h_28 => simp_all [listedFuncs, BitVec.toNat_eq, eq_comm]
  all_goals simp [listedFuncs]

/-- R76 for the I-type words: the table refuses exactly the opcodes it does not list. -/
theorem classifyI_eq_error_iff {lw : LwOpcode} {op : BitVec 6} {f : IFields} {k : DecodeFault} :
    classifyI lw op f = .error k ↔
      k = .unknownOpcode ∧ op ≠ lw.code ∧ op.toNat ∉ listedOpcodes := by
  unfold classifyI
  split
  case h_20 =>
    split <;> simp_all [listedOpcodes, BitVec.toNat_eq, eq_comm]
  all_goals simp [listedOpcodes]

/-- R65: a word with opcode 0 is looked up by its func. -/
theorem decode_of_opcode_zero (lw : LwOpcode) {w : Word} (h : w.extractLsb' 26 6 = 0#6) :
    ∃ f, decode lw w = classifyR f (w.extractLsb' 0 6) := by
  unfold decode Raw.ofWord
  exact ⟨_, congrArg (Raw.classify lw) (if_pos h)⟩

/-- R66: a word with another opcode is looked up by that opcode. -/
theorem decode_of_opcode_ne_zero (lw : LwOpcode) {w : Word} (h : w.extractLsb' 26 6 ≠ 0#6) :
    ∃ f, decode lw w = classifyI lw (w.extractLsb' 26 6) f := by
  unfold decode Raw.ofWord
  exact ⟨_, congrArg (Raw.classify lw) (if_neg h)⟩

/-- Settles O3: the opcode says which of the two tables is searched, and each table raises only its own
decode fault. -/
theorem illegalWordsAreExactlyTheUnlisted : Obligations.IllegalWordsAreExactlyTheUnlisted := by
  unfold Obligations.IllegalWordsAreExactlyTheUnlisted
  intro lw w
  by_cases isR : w.extractLsb' 26 6 = 0#6
  · obtain ⟨f, looksUp⟩ := decode_of_opcode_zero lw isR
    rw [looksUp, classifyR_eq_error_iff, classifyR_eq_error_iff]
    simp [isR, listedFuncs]
  · obtain ⟨f, looksUp⟩ := decode_of_opcode_ne_zero lw isR
    rw [looksUp, classifyI_eq_error_iff, classifyI_eq_error_iff]
    simp [isR, listedOpcodes]

/-- Settles O4: the decoder runs on the eleven words. -/
theorem exampleWordsDecode : Obligations.ExampleWordsDecode := by
  unfold Obligations.ExampleWordsDecode
  decide

end Sys2Proof

/-! ### What every instruction keeps (10_state R16 to R33, 20_memory R43, R58, 60_exceptions R135)

`exec_cases` says which shapes the state after an instruction can have.  Each lemma below reads one
field of the state off those shapes, and the laws about every instruction are these lemmas. -/

namespace Sys2Proof.Machine

variable {i : Instr} {s t : State} {k : Fault}

@[simp] theorem State.applyAnswer_hi (a : SyscallAnswer) : (s.applyAnswer a).hi = s.hi := by
  cases a <;> rfl
@[simp] theorem State.applyAnswer_lo (a : SyscallAnswer) : (s.applyAnswer a).lo = s.lo := by
  cases a <;> rfl
@[simp] theorem State.applyAnswer_pc (a : SyscallAnswer) : (s.applyAnswer a).pc = s.pc := by
  cases a <;> rfl
@[simp] theorem State.applyAnswer_mem (a : SyscallAnswer) : (s.applyAnswer a).mem = s.mem := by
  cases a <;> rfl
@[simp] theorem State.applyAnswer_out (a : SyscallAnswer) : (s.applyAnswer a).out = s.out := by
  cases a <;> rfl
@[simp] theorem State.applyAnswer_cfg (a : SyscallAnswer) : (s.applyAnswer a).cfg = s.cfg := by
  cases a <;> rfl
@[simp] theorem State.applyAnswer_hostAnswers (a : SyscallAnswer) :
    (s.applyAnswer a).hostAnswers = s.hostAnswers := by
  cases a <;> rfl
@[simp] theorem State.applyAnswer_hostDraws (a : SyscallAnswer) :
    (s.applyAnswer a).hostDraws = s.hostDraws := by
  cases a <;> rfl
@[simp] theorem State.applyAnswer_regs_zero (a : SyscallAnswer) :
    (s.applyAnswer a).regs[0] = s.regs[0] := by
  cases a with
  | result v => exact s.writeReg_regs_zero syscallResultReg v
  | halt => rfl

/-- R133: the engine halts exactly where the host asks for it. -/
theorem State.applyAnswer_run (a : SyscallAnswer) :
    (s.applyAnswer a).run = if a = .halt then .halted else s.run := by
  cases a <;> rfl

/-- R58: the engine halts exactly at a stored 1 at `HALT_ADDR` of a watch. -/
theorem State.watch_run_eq_halted_iff {ea sv : Word} (hrun : s.run = .running) :
    (s.watch ea sv).run = .halted ↔ ∃ m, s.cfg.mmioWatch = some m ∧ ea = m.haltAddr ∧ sv = 1#32 := by
  obtain ⟨unset, hw⟩ | ⟨m, set, hr, -⟩ := s.watch_cases ea sv
  · simp [hw, unset, hrun]
  · simp [hr, set, hrun]

/-- R58: the watch raises no fault. -/
theorem State.watch_run_cases (ea sv : Word) :
    (s.watch ea sv).run = s.run ∨ (s.watch ea sv).run = .halted := by
  obtain ⟨-, hw⟩ | ⟨m, -, hr, -⟩ := s.watch_cases ea sv
  · exact .inl (by rw [hw])
  · rw [hr]
    split
    · exact .inr rfl
    · exact .inl rfl

/-- R58: what the watch may append to the output stream, and where. -/
theorem State.watch_out_cases (ea sv : Word) :
    (s.watch ea sv).out = s.out ∨ ∃ m, s.cfg.mmioWatch = some m ∧ ea = m.outAddr ∧
      (s.watch ea sv).out = s.out ++ [sv.extractLsb' 0 8] := by
  obtain ⟨-, hw⟩ | ⟨m, set, -, ho⟩ := s.watch_cases ea sv
  · exact .inl (by rw [hw])
  · by_cases atOut : ea = m.outAddr
    · exact .inr ⟨m, set, atOut, ho.trans (if_pos atOut)⟩
    · exact .inl (ho.trans (if_neg atOut))

/-- R31: the constants of the run. -/
theorem Effect.cfg_eq (e : Effect i s t) : t.cfg = s.cfg := by
  cases e <;> simp

/-- The stored `x[0]` is written by nothing (R21). -/
theorem Effect.regs_zero (e : Effect i s t) : t.regs[0] = s.regs[0] := by
  cases e <;> simp

/-- R25: the accumulators. -/
theorem Effect.hi_lo (e : Effect i s t) :
    (writesHi i = false → t.hi = s.hi) ∧ (writesLo i = false → t.lo = s.lo) := by
  cases e with
  | hiLo h l keepsHi keepsLo => exact ⟨keepsHi, keepsLo⟩
  | _ => simp

/-- R23: the general registers. -/
theorem Effect.readReg_eq (e : Effect i s t) {r : RegIdx} (hr : destReg i ≠ some r) :
    t.readReg r = s.readReg r := by
  have other : ∀ {d : RegIdx} (v : Word), destReg i = some d →
      ∀ u : State, (u.writeReg d v).readReg r = u.readReg r := by
    rintro d v dest u
    have ne : r ≠ d := fun eq => hr (eq ▸ dest)
    rw [State.readReg_writeReg, if_neg fun ⟨eq, _⟩ => ne eq]
  cases e with
  | reg rd v dest | link rd p dest => simp [other _ dest]
  | syscall _ dest =>
    cases s.hostAnswer with
    | result v => simp [State.applyAnswer, other v dest]
    | halt => simp [State.applyAnswer]
  | _ => simp

/-- R43, R52: memory. -/
theorem Effect.mem_cases (e : Effect i s t) :
    t.mem = s.mem ∨ ∃ ea n sv, storeOf s i = some (ea, n, sv) ∧ s.accessFault ea n = none ∧
      Stored s.mem t.mem ea.toNat n := by
  cases e with
  | store ea n sv m hm passes stored => exact .inr ⟨ea, n, sv, hm, passes, by simpa using stored⟩
  | _ => simp

/-- R33, R58: the output stream. -/
theorem Effect.out_cases (e : Effect i s t) :
    t.out = s.out ∨ ∃ m ea n sv, s.cfg.mmioWatch = some m ∧ storeOf s i = some (ea, n, sv) ∧
      ea = m.outAddr ∧ s.accessFault ea n = none ∧ t.out = s.out ++ [sv.extractLsb' 0 8] := by
  cases e with
  | store ea n sv mem hm passes =>
    obtain same | ⟨m, set, atOut, appends⟩ := (s.setMem mem).watch_out_cases ea sv
    · exact .inl same
    · exact .inr ⟨m, ea, n, sv, set, hm, atOut, passes, appends⟩
  | _ => simp

/-- R28, R29: the next pc of an instruction that is no branch and no jump. -/
theorem Effect.pc_cases (e : Effect i s t) (hp : redirectsPc i = false) :
    t.pc = s.pc + 4#32 ∨ ∃ k, mayRaise i k = true ∧ FaultTaken s t k := by
  cases e with
  | fault k raises => exact .inr ⟨k, raises, s.takeFault_taken k⟩
  | jump _ _ _ redirects | link _ _ _ _ redirects => rw [hp] at redirects; cases redirects
  | _ => exact .inl rfl

/-- R135, R137: only a fault of the instruction's own makes a running engine `Faulted`, and it changes
nothing else. -/
theorem Effect.eq_takeFault (e : Effect i s t) (hrun : s.run = .running) {fpc : Word}
    (ht : t.run = .faulted k fpc) : mayRaise i k = true ∧ fpc = s.pc ∧ t = s.takeFault k := by
  cases e with
  | fault k' raises => cases ht; exact ⟨raises, rfl, rfl⟩
  | store ea n sv mem =>
    rw [State.setPc_run] at ht
    obtain same | halts := (s.setMem mem).watch_run_cases ea sv
    · rw [same, State.setMem_run, hrun] at ht; cases ht
    · rw [halts] at ht; cases ht
  | syscall =>
    rw [State.setPc_run, State.applyAnswer_run, State.drawAnswer_run, hrun] at ht
    split at ht <;> cases ht
  | _ => exact absurd (hrun.symm.trans ht) (by simp)

theorem isSyscall_eq_false_of_mayRaise (h : mayRaise i k = true) : isSyscall i = false := by
  cases i with
  | syscall => cases h
  | _ => rfl

/-- R143: the two ways to halt. -/
theorem Effect.halted_iff (e : Effect i s t) (hrun : s.run = .running) :
    t.run = .halted ↔
      (isSyscall i = true ∧ s.hostAnswer = .halt) ∨
      (∃ m ea n, s.cfg.mmioWatch = some m ∧ storeOf s i = some (ea, n, 1#32) ∧
        s.accessFault ea n = none ∧ ea = m.haltAddr) := by
  cases e with
  | fault k raises refused =>
    refine ⟨fun halted => (nomatch halted), ?_⟩
    rintro (⟨isSys, -⟩ | ⟨m, ea, n, -, hm, passes, -⟩)
    · rw [isSyscall_eq_false_of_mayRaise raises] at isSys; cases isSys
    · exact absurd passes (refused _ _ _ hm)
  | store ea n sv mem hm passes _ _ hs =>
    rw [State.setPc_run, State.watch_run_eq_halted_iff (s := s.setMem mem) hrun]
    constructor
    · rintro ⟨m, set, atHalt, rfl⟩
      exact .inr ⟨m, ea, n, set, hm, passes, atHalt⟩
    · rintro (⟨isSys, -⟩ | ⟨m, ea', n', set, hm', -, atHalt⟩)
      · rw [hs] at isSys; cases isSys
      · rw [hm] at hm'; cases hm'; exact ⟨m, set, atHalt, rfl⟩
  | syscall hs _ _ hm =>
    simp [State.applyAnswer_run, hs, hm, hrun]
  | _ => simp [*]

theorem Effect.pc_of_halted (e : Effect i s t) (hrun : s.run = .running) (ht : t.run = .halted) :
    t.pc = s.pc + 4#32 := by
  cases e with
  | fault => cases ht
  | jump | link => exact absurd (hrun.symm.trans ht) (by simp)
  | _ => rfl

end Sys2Proof.Machine

/-! ### The laws about every instruction (10_state sections 1 to 5, 60_exceptions sections 1 and 4) -/

namespace Sys2Proof.Machine

/-- Settles O20: an accumulator is written only by the shape that names it. -/
theorem onlyTheirInstructionsWriteHiLo : Obligations.OnlyTheirInstructionsWriteHiLo := by
  unfold Obligations.OnlyTheirInstructionsWriteHiLo
  exact fun _ _ _ h => (exec_cases h).hi_lo

/-- Settles O21: the shapes that write a register write that of `destReg`. -/
theorem onlyTheDestinationRegisterChanges : Obligations.OnlyTheDestinationRegisterChanges := by
  unfold Obligations.OnlyTheDestinationRegisterChanges
  exact fun _ _ _ _ h => (exec_cases h).readReg_eq

/-- Settles O19: the only shape that changes memory is that of a retiring store. -/
theorem onlyStoresChangeMemory : Obligations.OnlyStoresChangeMemory := by
  unfold Obligations.OnlyStoresChangeMemory
  intro i s t h
  obtain same | ⟨ea, n, sv, isStore, -, stored⟩ := (exec_cases h).mem_cases
  · exact ⟨fun _ => same, fun _ _ _ _ _ b _ => by rw [same]⟩
  · refine ⟨fun noStore => ?_, fun ea' n' sv' isStore' => ?_⟩
    · rw [isStore] at noStore; cases noStore
    · rw [isStore] at isStore'; cases isStore'; exact stored.outside

/-- Settles O23: the shapes that do not redirect the pc add 4 to it, except the fault. -/
theorem thePcAdvancesByFour : Obligations.ThePcAdvancesByFour := by
  unfold Obligations.ThePcAdvancesByFour
  exact fun _ _ _ hp h => (exec_cases h).pc_cases hp

/-- Settles O24: the only shape that emits is that of a store under a watch. -/
theorem onlyWatchedStoresEmitOutput : Obligations.OnlyWatchedStoresEmitOutput := by
  unfold Obligations.OnlyWatchedStoresEmitOutput
  exact fun _ _ _ h => (exec_cases h).out_cases

/-- Settles O13: a running engine that ends `Faulted` took a fault in this instruction. -/
theorem instructionsRaiseOnlyTheirFaults : Obligations.InstructionsRaiseOnlyTheirFaults := by
  unfold Obligations.InstructionsRaiseOnlyTheirFaults
  intro i s t k fpc hrun h ht
  have ⟨raises, atPc, _⟩ := (exec_cases h).eq_takeFault hrun ht
  exact ⟨raises, atPc⟩

/-- Settles O14: the run state `halted` is written by the host's answer and by the watch alone. -/
theorem haltsInExactlyTwoWays : Obligations.HaltsInExactlyTwoWays := by
  unfold Obligations.HaltsInExactlyTwoWays
  exact fun _ _ _ hrun h => ⟨(exec_cases h).halted_iff hrun, (exec_cases h).pc_of_halted hrun⟩

/-- Settles O5: no meaning reads a field that `canonize` zeroes. -/
theorem ignoredFieldsHaveNoEffect : Obligations.IgnoredFieldsHaveNoEffect := by
  unfold Obligations.IgnoredFieldsHaveNoEffect
  intro i s
  cases i with
  | _ f => rfl

end Sys2Proof.Machine

/-! ### The step and the run (10_state R36 to R42, 60_exceptions R137, R144) -/

namespace Sys2Proof.Machine

section
variable {s t : State} {k : Fault}

/-- A pc is word-aligned when its bits 1..0 are 0 (R38). -/
theorem extractLsb'_two_eq_zero_iff (pc : Word) : pc.extractLsb' 0 2 = 0#2 ↔ pc.toNat % 4 = 0 := by
  simp [← BitVec.toNat_inj]

theorem State.stackOverflows_eq_true_iff :
    s.stackOverflows = true ↔ (s.readReg 29#5).toNat < s.cfg.stackLimit.toNat := by
  rw [State.stackOverflows, decide_eq_true_iff]
  rfl

/-- R53: the fetch of an aligned pc with its word inside memory. -/
theorem State.fetch_of_aligned (ha : s.pc.toNat % 4 = 0) (hb : s.pc.toNat + 4 ≤ s.cfg.memSize) :
    s.fetch = some (s.mem.readWord s.pc.toNat) :=
  State.fetch_eq_some.2 ⟨s.accessFault_eq_none.2 ⟨ha, hb⟩, rfl⟩

/-- Every step answers a next state: each of its phases ends in one (R36). -/
theorem step_next (s : State) : ∃ t, step s = .next t := by
  unfold step
  split
  · split
    · exact ⟨_, rfl⟩
    · split
      · exact ⟨_, rfl⟩
      · split
        · exact ⟨_, rfl⟩
        · exact exec_next _ s
  · exact ⟨_, rfl⟩

/-- R31: a step changes no constant of the run. -/
theorem step_cfg_eq (h : step s = .next t) : t.cfg = s.cfg := by
  obtain ⟨-, rfl⟩ | ⟨-, k, rfl⟩ | ⟨-, w, i, -, -, hi⟩ := step_cases h
  · rfl
  · rfl
  · exact (exec_cases hi).cfg_eq

/-- R137: a step that faults takes the fault, and nothing else. -/
theorem eq_takeFault_of_step (hrun : s.run = .running) (h : step s = .next t) {fpc : Word}
    (ht : t.run = .faulted k fpc) : fpc = s.pc ∧ t = s.takeFault k := by
  obtain ⟨terminal, -⟩ | ⟨-, k', rfl⟩ | ⟨-, w, i, -, -, hi⟩ := step_cases h
  · exact absurd hrun terminal
  · cases ht; exact ⟨rfl, rfl⟩
  · have ⟨_, atPc, same⟩ := (exec_cases hi).eq_takeFault hrun ht
    exact ⟨atPc, same⟩

/-- R41: `run` answers a terminal engine at once. -/
theorem run_terminal (h : s.run ≠ .running) (n : Nat) : run n s = some s := by
  cases n <;> exact if_neg h

theorem run_zero_of_running (h : s.run = .running) : run 0 s = none := if_pos h

/-- R42: a running engine takes one step. -/
theorem run_succ_of_running (hrun : s.run = .running) (h : step s = .next t) (n : Nat) :
    run (n + 1) s = run n t := by
  simp [run, hrun, h]

/-- What an answer of `run` comes from: a terminal engine, or one step and the rest of the fuel. -/
theorem run_eq_some_cases {n : Nat} (h : run n s = some t) :
    (s.run ≠ .running ∧ t = s) ∨
    ∃ m u, n = m + 1 ∧ s.run = .running ∧ step s = .next u ∧ run m u = some t := by
  by_cases hrun : s.run = .running
  · obtain ⟨u, hu⟩ := step_next s
    cases n with
    | zero => rw [run_zero_of_running hrun] at h; cases h
    | succ m => rw [run_succ_of_running hrun hu] at h; exact .inr ⟨m, u, rfl, hrun, hu, h⟩
  · rw [run_terminal hrun] at h; cases h; exact .inl ⟨hrun, rfl⟩

theorem not_running_of_run {n : Nat} (h : run n s = some t) : t.run ≠ .running := by
  induction n using Nat.strong_induction_on generalizing s with
  | _ n ih =>
    obtain ⟨terminal, rfl⟩ | ⟨m, u, rfl, -, -, rest⟩ := run_eq_some_cases h
    · exact terminal
    · exact ih m m.lt_succ_self rest

/-- R144: more fuel gives the same answer. -/
theorem run_add_fuel {n : Nat} (h : run n s = some t) (j : Nat) : run (n + j) s = some t := by
  induction n using Nat.strong_induction_on generalizing s with
  | _ n ih =>
    obtain ⟨terminal, rfl⟩ | ⟨m, u, rfl, hrun, hu, rest⟩ := run_eq_some_cases h
    · exact run_terminal terminal _
    · rw [Nat.succ_add, run_succ_of_running hrun hu]
      exact ih m m.lt_succ_self rest

end

/-- Settles O10: each phase of a step ends in a next state. -/
theorem everyStepAnswersANextState : Obligations.EveryStepAnswersANextState := by
  unfold Obligations.EveryStepAnswersANextState
  exact step_next

/-- Settles O6: the checks pass, so the step is the last phase. -/
theorem stepRunsTheDecodedInstruction : Obligations.StepRunsTheDecodedInstruction := by
  unfold Obligations.StepRunsTheDecodedInstruction
  exact fun s i hrun hsp ha hb hd =>
    step_exec hrun (State.stackOverflows_eq_false_iff.2 hsp) (State.fetch_of_aligned ha hb) hd

/-- Settles O7: one law of the step for each phase. -/
theorem stepFollowsTheProtocol : Obligations.StepFollowsTheProtocol := by
  unfold Obligations.StepFollowsTheProtocol
  intro s w
  refine ⟨step_terminal, fun hrun hsp => ?stack, fun hrun hsp hpc => ?fetch,
    fun hrun hsp ha hb => ?decode⟩
  case stack =>
    exact ⟨_, step_stackOverflow hrun (State.stackOverflows_eq_true_iff.2 hsp), s.takeFault_taken _⟩
  case fetch =>
    rw [Ne, extractLsb'_two_eq_zero_iff] at hpc
    exact step_takes_badFetch hrun hsp hpc
  case decode =>
    have passes := State.stackOverflows_eq_false_iff.2 hsp
    have fetched := State.fetch_of_aligned ((extractLsb'_two_eq_zero_iff s.pc).1 ha) hb
    exact ⟨fun k hd => ⟨_, step_illegal hrun passes fetched hd, s.takeFault_taken _⟩,
      fun i hd => step_exec hrun passes fetched hd⟩

/-- Settles O9: the state after a fault is `takeFault` of the state before, and that is terminal. -/
theorem faultsArePreciseAndTerminal : Obligations.FaultsArePreciseAndTerminal := by
  unfold Obligations.FaultsArePreciseAndTerminal
  intro s t k fpc hrun h ht
  have ⟨atPc, same⟩ := eq_takeFault_of_step hrun h ht
  exact ⟨atPc, same, step_terminal fun running => nomatch ht.symm.trans running⟩

/-- Settles O11: neither the step nor `run` moves an engine that is not running. -/
theorem terminalStatesStay : Obligations.TerminalStatesStay := by
  unfold Obligations.TerminalStatesStay
  exact fun _ terminal => ⟨step_terminal terminal, run_terminal terminal⟩

/-- Settles O12, by induction on the fuel. -/
theorem runEndsInATerminalState : Obligations.RunEndsInATerminalState := by
  unfold Obligations.RunEndsInATerminalState
  intro n s t h
  have terminal := not_running_of_run h
  exact ⟨terminal, step_terminal terminal, run_add_fuel h⟩

/-- Settles O18: neither a fault nor an instruction changes the configuration. -/
theorem noStepChangesTheConfiguration : Obligations.NoStepChangesTheConfiguration := by
  unfold Obligations.NoStepChangesTheConfiguration
  exact fun _ _ => step_cfg_eq

end Sys2Proof.Machine

/-! ### The invariant (10_state R21, R33, 20_memory R43, 60_exceptions R136)

One instruction keeps each clause of `State.Inv` by the lemma about the field it speaks of, and so
does every step.  What holds at launch then holds of every state a run reaches. -/

namespace Sys2Proof.Machine

section
variable {i : Instr} {s t : State}

/-- A recorded fault pc is the pc the instruction started at (R136). -/
theorem Effect.agreesWith (e : Effect i s t) (hrun : s.run = .running) :
    t.run.agreesWith t.pc = true := by
  cases ht : t.run with
  | running | halted => rfl
  | faulted k fpc =>
    obtain ⟨-, rfl, rfl⟩ := e.eq_takeFault hrun ht
    exact decide_eq_true rfl

theorem Effect.inv (e : Effect i s t) (hrun : s.run = .running) (inv : s.Inv) : t.Inv where
  cfgInRange := e.cfg_eq ▸ inv.cfgInRange
  memCanonical := by
    obtain same | ⟨ea, n, sv, -, -, stored⟩ := e.mem_cases
    · exact same ▸ inv.memCanonical
    · exact stored.wf inv.memCanonical
  memInside := by
    rw [e.cfg_eq]
    obtain same | ⟨ea, n, sv, -, passes, stored⟩ := e.mem_cases
    · exact same ▸ inv.memInside
    · have ⟨_, inside⟩ := s.accessFault_eq_none.1 passes
      exact stored.below _ inside inv.memInside
  zeroReg := e.regs_zero.trans inv.zeroReg
  outWatched := by
    rw [e.cfg_eq]
    intro unset
    obtain same | ⟨m, ea, n, sv, set, -⟩ := e.out_cases
    · exact same.trans (inv.outWatched unset)
    · rw [unset] at set; cases set
  faultPc := e.agreesWith hrun

/-- Taking a fault records the pc (R136) and changes nothing else (R137). -/
theorem State.Inv.takeFault (inv : s.Inv) (k : Fault) : (s.takeFault k).Inv :=
  { inv with faultPc := decide_eq_true rfl }

theorem State.Inv.step (inv : s.Inv) (h : step s = .next t) : t.Inv := by
  obtain ⟨-, rfl⟩ | ⟨-, k, rfl⟩ | ⟨hrun, w, i, -, -, hi⟩ := step_cases h
  · exact inv
  · exact inv.takeFault k
  · exact (exec_cases hi).inv hrun inv

/-- What every step keeps, every run keeps. -/
theorem State.Inv.coreRun (inv : s.Inv) {k : Nat} (h : core.run k s = .next t) : t.Inv := by
  induction k generalizing s with
  | zero => cases h; exact inv
  | succ k ih =>
    obtain ⟨u, hu⟩ := step_next s
    rw [coreRun_succ k hu] at h
    exact ih (inv.step hu) h

/-- The state after construction (R153). -/
theorem State.initial_inv {c : Config} (hc : c.wf = true) : (State.initial c).Inv where
  cfgInRange := hc
  memCanonical := rfl
  memInside := fun _ hm => nomatch hm
  zeroReg := by simp [State.initial]
  outWatched := fun _ => rfl
  faultPc := rfl

theorem launchOk_iff {c : Config} {words : Nat} :
    c.launchOk words = true ↔
      c.wf = true ∧ c.loadAddr.toNat % 4 = 0 ∧ c.loadAddr.toNat + 4 * words ≤ c.memSize := by
  simp [Config.launchOk, and_assoc]

/-- Program load writes only inside memory (R152). -/
theorem launch_inv {c : Config} {program : List Word} (h : launch c program = some s) : s.Inv := by
  unfold launch at h
  split at h
  case isTrue ok =>
    obtain ⟨hc, -, fits⟩ := launchOk_iff.1 ok
    cases h
    exact { State.initial_inv hc with
      memCanonical := Memory.wf_loadWords rfl _ _
      memInside := Memory.loadWords_below _ fits fun _ hm => nomatch hm }
  case isFalse => cases h

end

/-- Settles O15: a step does nothing, takes a fault, or executes an instruction, and each keeps the
invariant. -/
theorem everyStepKeepsTheInvariant : Obligations.EveryStepKeepsTheInvariant := by
  unfold Obligations.EveryStepKeepsTheInvariant
  exact fun _ _ => State.Inv.step

/-- Settles O16: the standard configuration is in range. -/
theorem resetMeetsTheInvariant : Obligations.ResetMeetsTheInvariant := by
  unfold Obligations.ResetMeetsTheInvariant
  exact State.initial_inv (by decide)

/-- Settles O17: the invariant holds at launch, whatever the host will answer, and every step keeps it. -/
theorem reachableStatesMeetTheInvariant : Obligations.ReachableStatesMeetTheInvariant := by
  unfold Obligations.ReachableStatesMeetTheInvariant
  intro c program answers s t k launched reached
  have atStart : State.Inv { s with hostAnswers := answers } := { launch_inv launched with }
  exact atStart.coreRun reached

end Sys2Proof.Machine

/-! ### Comparisons and sign-extended immediates (40_alu_register R89, R90, 43_alu_immediate R108 to R111)

A comparison writes `bit` of its condition, and its two outcomes are `comparison_result`.  The signed
16-bit offset of `addiu` and of an effective address is added modulo 2^32: `toNat_add_signImm`. -/

namespace Sys2Proof.Machine

/-- R89, R90, R110, R111: 1 where the condition holds, 0 where it does not. -/
theorem comparison_result {i : Instr} {s : State} {rd : RegIdx} {p : Prop} [Decidable p]
    (h : exec i s = writeAndRetire rd (bit (decide p)) s) :
    (p → WritesReg i s rd 1#32) ∧ (¬ p → WritesReg i s rd 0#32) := by
  refine ⟨fun holds => writesReg_of ?_, fun fails => writesReg_of ?_⟩
  · rw [h, decide_eq_true holds]; rfl
  · rw [h, decide_eq_false fails]; rfl

/-- R29, R68: a word plus the sign-extended immediate wraps. -/
theorem toNat_add_signImm (a : Word) (imm : Imm) :
    ((a + signImm imm).toNat : Int) = (a.toNat + imm.toInt) % 2 ^ 32 := by
  rw [BitVec.toNat_add, Int.natCast_emod, Nat.cast_add, signImm_toNat]
  exact Int.add_emod_emod ..

/-- Settles O28: both instructions write `bit` of a comparison of the two registers. -/
theorem sltSltuWriteTheComparison : Obligations.SltSltuWriteTheComparison := by
  unfold Obligations.SltSltuWriteTheComparison
  refine ⟨encodedR_of fun _ => rfl, encodedR_of fun _ => rfl, fun f s => ?_⟩
  have ⟨sltOne, sltZero⟩ := comparison_result (i := .slt f) (s := s) rfl
  have ⟨sltuOne, sltuZero⟩ := comparison_result (i := .sltu f) (s := s) rfl
  exact ⟨sltOne, fun ge => sltZero (not_lt_of_ge ge), sltuOne, fun ge => sltuZero (not_lt_of_ge ge)⟩

/-- Settles O35: the overflow check of the exact sum with the signed immediate. -/
theorem addiTrapsExactlyOnSignedOverflow : Obligations.AddiTrapsExactlyOnSignedOverflow := by
  unfold Obligations.AddiTrapsExactlyOnSignedOverflow
  refine ⟨encodedI_of (by decide) fun _ _ => rfl, fun f s => ?_⟩
  rw [← signImm_toInt]
  exact trapOrWrite_result rfl

/-- Settles O36: the three instructions read the immediate as the sign-extended word, `slti` as the
signed value of it and `sltiu` as the unsigned one. -/
theorem addiuSltiSltiuSignExtend : Obligations.AddiuSltiSltiuSignExtend := by
  unfold Obligations.AddiuSltiSltiuSignExtend
  refine ⟨encodedI_of (by decide) fun _ _ => rfl, encodedI_of (by decide) fun _ _ => rfl,
    encodedI_of (by decide) fun _ _ => rfl, fun f s => ?_⟩
  intro a
  have ⟨sltiOne, sltiZero⟩ := comparison_result (i := .slti f) (s := s) rfl
  have ⟨sltiuOne, sltiuZero⟩ := comparison_result (i := .sltiu f) (s := s) rfl
  rw [signImm_toInt] at sltiOne sltiZero
  rw [← Nat.cast_lt (α := Int), signImm_toNat] at sltiuOne sltiuZero
  exact ⟨⟨_, writesReg_of rfl, toNat_add_signImm _ _⟩,
    sltiOne, fun ge => sltiZero (not_lt_of_ge ge), sltiuOne, fun ge => sltiuZero (not_lt_of_ge ge)⟩

/-- Settles O42: the addressing mode is the wrapping addition of the offset. -/
theorem effectiveAddressWraps : Obligations.EffectiveAddressWraps := by
  unfold Obligations.EffectiveAddressWraps
  exact fun _ _ => toNat_add_signImm _ _

end Sys2Proof.Machine

/-! ### Variable shifts, sign branches, register jumps (41_shifts R95 to R97, 44_control_transfer R119 to
R122) -/

namespace Sys2Proof.Machine

/-- Settles O30: the shift by a count is arithmetic whatever the count, and this one is `x[rs]` modulo
32. -/
theorem variableShiftsUseTheCountModuloThirtyTwo :
    Obligations.VariableShiftsUseTheCountModuloThirtyTwo := by
  unfold Obligations.VariableShiftsUseTheCountModuloThirtyTwo
  refine ⟨encodedR_of fun _ => rfl, encodedR_of fun _ => rfl, encodedR_of fun _ => rfl,
    fun f s => ?_⟩
  rw [← regCount_eq]
  refine ⟨?sllv, ?srlv, ?srav⟩
  case sllv => exact ⟨_, writesReg_of rfl, toNat_shiftLeft_eq_mul_mod _ _⟩
  case srlv => exact ⟨_, writesReg_of rfl, toNat_ushiftRight_eq_div _ _⟩
  case srav => exact ⟨_, writesReg_of rfl, toInt_sshiftRight_eq_div _ _⟩

/-- Settles O40: the two conditions are each other's negation. -/
theorem blezBgtzBranchOnSign : Obligations.BlezBgtzBranchOnSign := by
  unfold Obligations.BlezBgtzBranchOnSign
  refine ⟨encodedI_of (by decide) fun _ _ => rfl, encodedI_of (by decide) fun _ _ => rfl,
    fun f s => ?_⟩
  have ⟨blezTaken, blezFallsThrough⟩ := branchIf_result (i := .blez f) (s := s) rfl
  have ⟨bgtzTaken, bgtzFallsThrough⟩ := branchIf_result (i := .bgtz f) (s := s) rfl
  exact ⟨blezTaken, fun positive => blezFallsThrough (not_le_of_gt positive),
    bgtzTaken, fun nonpositive => bgtzFallsThrough (not_lt_of_ge nonpositive)⟩

/-- Settles O41: the target is read from the state before the link is written. -/
theorem jumpsGoToTheRegisterAndLink : Obligations.JumpsGoToTheRegisterAndLink := by
  unfold Obligations.JumpsGoToTheRegisterAndLink
  refine ⟨encodedR_of fun _ => rfl, encodedR_of fun _ => rfl, fun f s => ⟨jumpsTo_of rfl, ?_⟩⟩
  exact ⟨_, rfl, rfl, fun r => s.readReg_writeReg f.rd r _, ⟨rfl, rfl⟩, fun _ => rfl, ⟨rfl, rfl⟩,
    rfl, rfl, rfl⟩

end Sys2Proof.Machine

/-! ### Multiply, divide and the moves of hi and lo (42_muldiv R98 to R106)

A product of two words fits into 64 bits, and `hi ++ lo` is that product.  A quotient and a remainder
fit into 32 bits each, but for the quotient of -2^31 by -1: `fitsSigned_tdiv` and `fitsSigned_tmod`. -/

namespace Sys2Proof.Machine

section
variable {i : Instr} {s : State}

/-- R98: the two halves of a product are put in `hi` and `lo`. -/
theorem writesHiLo_of_product {p : BitVec 64} (h : exec i s = writeProduct p s) :
    ∃ a b : Word, WritesHiLo i s a b ∧ a ++ b = p :=
  ⟨_, _, writesHiLo_of h, BitVec.extractLsb'_append_extractLsb'⟩

theorem toInt_product (a b : Word) :
    (BitVec.ofInt 64 (a.toInt * b.toInt)).toInt = a.toInt * b.toInt := by
  have low := BitVec.le_toInt_mul_toInt (x := a) (y := b)
  have high := BitVec.toInt_mul_toInt_le (x := a) (y := b)
  exact BitVec.toInt_ofInt_eq_self (by decide) (by omega) (by omega)

theorem toNat_product (a b : Word) :
    (BitVec.ofNat 64 (a.toNat * b.toNat)).toNat = a.toNat * b.toNat := by
  rw [BitVec.toNat_ofNat]
  exact Nat.mod_eq_of_lt BitVec.toNat_mul_toNat_lt

theorem fitsSigned_toInt (x : Word) : fitsSigned x.toInt = true :=
  (fitsSigned_iff _).2 ⟨x.le_toInt, Int.le_sub_one_of_lt x.toInt_lt⟩

theorem divSigned_eq {a b : Int} (hb : b ≠ 0) : divSigned a b = (a.tdiv b, a.tmod b) := by
  rw [divSigned, if_neg hb, Int.tmod_def, mul_comm b]

theorem natAbs_tmod_lt (a : Int) {b : Int} (hb : b ≠ 0) : (a.tmod b).natAbs < b.natAbs := by
  rw [Int.natAbs_tmod]
  exact Nat.mod_lt _ (Int.natAbs_pos.2 hb)

/-- R101: a truncated quotient is in range, except that of the overflowing pair (D19). -/
theorem fitsSigned_tdiv {a b : Int} (ha : fitsSigned a = true) (hb : b ≠ 0)
    (hab : ¬ (a = -2 ^ 31 ∧ b = -1)) : fitsSigned (a.tdiv b) = true := by
  rw [fitsSigned_iff] at ha ⊢
  have noLarger := Int.natAbs_tdiv_le_natAbs a b
  have notTooLarge : a.tdiv b ≠ 2 ^ 31 := fun overflow => by
    have exact := Int.tdiv_mul_add_tmod a b
    have small := natAbs_tmod_lt a hb
    rw [overflow] at exact
    omega
  omega

theorem fitsSigned_tmod (a : Int) {b : Int} (hb : b ≠ 0) (inRange : fitsSigned b = true) :
    fitsSigned (a.tmod b) = true := by
  rw [fitsSigned_iff] at inRange ⊢
  have small := natAbs_tmod_lt a hb
  omega

/-- R98: the remainder has the dividend's sign. -/
theorem tmod_nonpos {a : Int} (b : Int) (ha : a ≤ 0) : a.tmod b ≤ 0 := by
  have := Int.tmod_nonneg b (Int.neg_nonneg_of_nonpos ha)
  rw [Int.neg_tmod] at this
  omega

/-- R98, R102: an unsigned quotient and remainder are no larger than the dividend, so they fit. -/
theorem toNat_ofNat_of_le {n : Nat} {x : Word} (h : n ≤ x.toNat) : (BitVec.ofNat 32 n).toNat = n := by
  rw [BitVec.toNat_ofNat]
  exact Nat.mod_eq_of_lt (h.trans_lt x.isLt)

end

/-- Settles O31: the 64-bit product is exact, signed and unsigned. -/
theorem multiplyLeavesTheExactProduct : Obligations.MultiplyLeavesTheExactProduct := by
  unfold Obligations.MultiplyLeavesTheExactProduct
  refine ⟨encodedR_of fun _ => rfl, encodedR_of fun _ => rfl, fun f s => ⟨?mult, ?multu⟩⟩
  case mult =>
    obtain ⟨h, l, writes, product⟩ := writesHiLo_of_product (i := .mult f) (s := s) rfl
    exact ⟨h, l, writes, by rw [product, toInt_product]⟩
  case multu =>
    obtain ⟨h, l, writes, product⟩ := writesHiLo_of_product (i := .multu f) (s := s) rfl
    exact ⟨h, l, writes, by rw [product, toNat_product]⟩

/-- Settles O32: quotient and remainder are those of the integer division truncated toward zero, and
both fit but for the overflowing pair. -/
theorem signedDivisionTruncatesTowardZero : Obligations.SignedDivisionTruncatesTowardZero := by
  unfold Obligations.SignedDivisionTruncatesTowardZero
  refine ⟨encodedR_of fun _ => rfl, fun f s => ?_⟩
  intro a b
  have writes : WritesHiLo (.div f) s (BitVec.ofInt 32 (divSigned a b).2)
      (BitVec.ofInt 32 (divSigned a b).1) := writesHiLo_of rfl
  refine ⟨fun hb hab => ?exact, fun ha hb => ?overflow, fun hb => ?zero⟩
  case exact =>
    have quotient : (BitVec.ofInt 32 (divSigned a b).1).toInt = a.tdiv b := by
      rw [divSigned_eq hb, toInt_ofInt_of_fits (fitsSigned_tdiv (fitsSigned_toInt _) hb hab)]
    have remainder : (BitVec.ofInt 32 (divSigned a b).2).toInt = a.tmod b := by
      rw [divSigned_eq hb, toInt_ofInt_of_fits (fitsSigned_tmod a hb (fitsSigned_toInt _))]
    refine ⟨_, _, writes, ?_⟩
    rw [quotient, remainder]
    exact ⟨(Int.tdiv_mul_add_tmod a b).symm, natAbs_tmod_lt a hb, Int.tmod_nonneg b, tmod_nonpos b⟩
  case overflow => rw [ha, hb] at writes; exact writes
  case zero => rw [hb] at writes; exact writes

/-- Settles O33: quotient and remainder of the natural numbers, which always fit. -/
theorem unsignedDivisionIsExact : Obligations.UnsignedDivisionIsExact := by
  unfold Obligations.UnsignedDivisionIsExact
  refine ⟨encodedR_of fun _ => rfl, fun f s => ?_⟩
  intro a b
  have writes : WritesHiLo (.divu f) s (BitVec.ofNat 32 (divUnsigned a b).2)
      (BitVec.ofNat 32 (divUnsigned a b).1) := writesHiLo_of rfl
  refine ⟨fun hb => ?exact, fun hb => ?zero⟩
  case exact =>
    rw [show divUnsigned a b = (a / b, a % b) from if_neg hb] at writes
    refine ⟨_, _, writes, ?_⟩
    rw [toNat_ofNat_of_le (Nat.div_le_self a b), toNat_ofNat_of_le (Nat.mod_le a b)]
    exact ⟨(Nat.div_add_mod' a b).symm, Nat.mod_lt a (Nat.pos_of_ne_zero hb)⟩
  case zero => rw [hb] at writes; exact writes

/-- Settles O34: a move to one accumulator leaves the other as it is. -/
theorem hiLoMovesCopyTheRegister : Obligations.HiLoMovesCopyTheRegister := by
  unfold Obligations.HiLoMovesCopyTheRegister
  exact ⟨encodedR_of fun _ => rfl, encodedR_of fun _ => rfl, encodedR_of fun _ => rfl,
    encodedR_of fun _ => rfl, fun f s =>
    ⟨writesReg_of rfl, writesReg_of rfl, writesHiLo_of rfl, writesHiLo_of rfl⟩⟩

end Sys2Proof.Machine

/-! ### Halfword and word loads (45_load_store R125, R126, R128) -/

namespace Sys2Proof.Machine

/-- R125: the sign extension keeps the halfword's signed value. -/
theorem halfSigned_toInt (m : Memory) (a : Nat) : (halfSigned m a).toInt = (m.readHalf a).toInt :=
  BitVec.toInt_signExtend_of_le (by decide)

/-- R128: the zero extension keeps the halfword's unsigned value. -/
theorem halfUnsigned_toNat (m : Memory) (a : Nat) :
    (halfUnsigned m a).toNat = (m.readHalf a).toNat :=
  BitVec.toNat_setWidth_of_le (by decide)

/-- Settles O44: both instructions are the load of two bytes, each with its own extension. -/
theorem halfwordLoadsExtendTheHalfword : Obligations.HalfwordLoadsExtendTheHalfword := by
  unfold Obligations.HalfwordLoadsExtendTheHalfword
  refine ⟨encodedI_of (by decide) fun _ _ => rfl, encodedI_of (by decide) fun _ _ => rfl,
    fun f s => ?_⟩
  have ⟨lhWrites, lhMisaligned, lhOutside⟩ := load_result (i := .lh f) (s := s) rfl
  have ⟨lhuWrites, lhuMisaligned, lhuOutside⟩ := load_result (i := .lhu f) (s := s) rfl
  refine ⟨fun even inside => ⟨⟨_, lhWrites even inside, halfSigned_toInt _ _⟩,
      ⟨_, lhuWrites even inside, halfUnsigned_toNat _ _⟩⟩, fun odd => ?_,
    fun even outside => ⟨lhOutside even outside, lhuOutside even outside⟩⟩
  have notEven : (effAddr f s).toNat % 2 ≠ 0 := odd ▸ Nat.one_ne_zero
  exact ⟨lhMisaligned notEven, lhuMisaligned notEven⟩

/-- Settles O45: the word of opcode `LW_OPCODE` is the encoding of `lw`, and what `lw` reads is the word
of the four bytes. -/
theorem wordLoadReadsTheBigEndianWord : Obligations.WordLoadReadsTheBigEndianWord := by
  unfold Obligations.WordLoadReadsTheBigEndianWord
  refine ⟨fun lw rs rt imm => decode_encode lw (.lw ⟨rs, rt, imm⟩), fun f s => ?_⟩
  have ⟨writes, misaligned, outside⟩ := load_result (i := .lw f) (s := s) rfl
  exact ⟨fun aligned inside => ⟨_, writes aligned inside, readWord_byte _ _⟩, misaligned, outside⟩

end Sys2Proof.Machine

/-! ### Stores (45_load_store R129 to R131, 20_memory R52, R58, R62)

A store that retires leaves the state `State.afterStore`, whatever its width: the new memory, then the
host watch, then the next pc. -/

namespace Sys2Proof.Machine

/-- The state after a store that retires: `m` is the memory written, `sv` the stored value. -/
def State.afterStore (s : State) (m : Memory) (ea sv : Word) : State :=
  ((s.setMem m).watch ea sv).setPc (s.pc + 4#32)

section
variable {i : Instr} {s : State}

/-- R52, R123: a store retires where its access passes both checks. -/
theorem store_retires {n : Nat} {write : Memory → Nat → Word → Memory} {ea v sv : Word}
    (h : exec i s = store n write ea v sv s) (aligned : ea.toNat % n = 0)
    (inside : ea.toNat + n ≤ s.cfg.memSize) :
    exec i s = .next (s.afterStore (write s.mem ea.toNat v) ea sv) :=
  have ⟨retires, _, _⟩ := store_result h
  retires aligned inside

/-- R52: a store outside memory traps, where it is aligned. -/
theorem store_outOfBounds {n : Nat} {write : Memory → Nat → Word → Memory} {ea v sv : Word}
    (h : exec i s = store n write ea v sv s) (aligned : ea.toNat % n = 0)
    (outside : s.cfg.memSize < ea.toNat + n) : Traps i s (.memoryFault .outOfBounds) :=
  have ⟨_, _, traps⟩ := store_result h
  traps aligned outside

@[simp] theorem State.afterStore_mem (m : Memory) (ea sv : Word) :
    (s.afterStore m ea sv).mem = m := by
  simp [State.afterStore]

@[simp] theorem State.afterStore_cfg (m : Memory) (ea sv : Word) :
    (s.afterStore m ea sv).cfg = s.cfg := by
  simp [State.afterStore]

/-- What a retiring store leaves unchanged, and its next pc. -/
theorem State.afterStore_frame (s : State) (m : Memory) (ea sv : Word) :
    (s.afterStore m ea sv).pc = s.pc + 4#32 ∧ SameRegs s (s.afterStore m ea sv) ∧
      SameHiLo s (s.afterStore m ea sv) ∧ SameHost s (s.afterStore m ea sv) ∧
      (s.cfg.mmioWatch = none → SameRun s (s.afterStore m ea sv)) := by
  refine ⟨rfl, fun r => by simp [State.afterStore], ?hiLo, ?host, fun unset => ?run⟩
  case hiLo => simp [SameHiLo, State.afterStore]
  case host => simp [SameHost, State.afterStore]
  case run =>
    obtain ⟨-, nothing⟩ | ⟨w, set, -⟩ := (s.setMem m).watch_cases ea sv
    · rw [State.afterStore, nothing]; exact ⟨rfl, rfl⟩
    · rw [State.setMem_cfg, unset] at set; cases set

/-- R58: what the host watch does at a retiring store. -/
theorem State.afterStore_watched (m : Memory) (ea sv : Word) {w : MmioWatch}
    (set : s.cfg.mmioWatch = some w) :
    (s.afterStore m ea sv).run = (if ea = w.haltAddr ∧ sv = 1#32 then .halted else s.run) ∧
    (s.afterStore m ea sv).out =
      (if ea = w.outAddr then s.out ++ [sv.extractLsb' 0 8] else s.out) := by
  obtain ⟨unset, -⟩ | ⟨w', set', hrun, hout⟩ := (s.setMem m).watch_cases ea sv
  · rw [State.setMem_cfg, set] at unset; cases unset
  · rw [State.setMem_cfg, set] at set'; cases set'; exact ⟨hrun, hout⟩

/-- Every store instruction is a `store` of its effective address, width and stored value. -/
theorem exec_eq_store_of_storeOf {ea : Word} {n : Nat} {sv : Word}
    (h : storeOf s i = some (ea, n, sv)) : ∃ write v, exec i s = store n write ea v sv s := by
  cases i with
  | sb | sh | sw => cases h; exact ⟨_, _, rfl⟩
  | _ => cases h

/-- R46: each halfword of a word in memory is the matching part of it, the most significant first. -/
theorem Memory.readHalf_of_readWord {m : Memory} {a j : Nat} {w : Word} (h : m.readWord a = w)
    (hj : j < 2) : m.readHalf (a + 2 * j) = w.extractLsb' (16 - 16 * j) 16 := by
  have byte := Memory.readWord_eq_iff.1 h
  obtain rfl | rfl : j = 0 ∨ j = 1 := by omega
  · rw [Memory.readHalf, ← byte 0 (by decide), ← byte 1 (by decide)]
    exact BitVec.extractLsb'_append_extractLsb'_eq_extractLsb' rfl
  · rw [Memory.readHalf, ← byte 2 (by decide), ← byte 3 (by decide)]
    exact BitVec.extractLsb'_append_extractLsb'_eq_extractLsb' rfl

end

/-- Settles O47: the three widths share the frame of a retiring store; each writes its own bytes. -/
theorem storesWriteTheirOwnBytes : Obligations.StoresWriteTheirOwnBytes := by
  unfold Obligations.StoresWriteTheirOwnBytes
  refine ⟨encodedI_of (by decide) fun _ _ => rfl, encodedI_of (by decide) fun _ _ => rfl,
    encodedI_of (by decide) fun _ _ => rfl, fun f s canonical => ?_⟩
  refine ⟨fun inside => ?sb, fun aligned inside => ?sh, fun aligned inside => ?sw⟩
  case sb =>
    refine ⟨_, store_retires rfl (Nat.mod_one _) inside, ?byte, ?outside,
      s.afterStore_frame _ _ _⟩
    case byte => rw [State.afterStore_mem, Memory.read_writeByte canonical, if_pos rfl]; rfl
    case outside =>
      unfold SameMemOutside
      rw [State.afterStore_mem]
      exact (stored_writeByte _ _ _).outside canonical
  case sh =>
    refine ⟨_, store_retires rfl aligned inside, ?high, ?low, ?outside, s.afterStore_frame _ _ _⟩
    case high =>
      rw [State.afterStore_mem, Memory.read_writeHalf canonical, if_neg (by omega), if_pos rfl]; rfl
    case low => rw [State.afterStore_mem, Memory.read_writeHalf canonical, if_pos rfl]; rfl
    case outside =>
      unfold SameMemOutside
      rw [State.afterStore_mem]
      exact (stored_writeHalf _ _ _).outside canonical
  case sw =>
    refine ⟨_, store_retires rfl aligned inside, fun k hk => ?bytes, ?outside,
      s.afterStore_frame _ _ _⟩
    case bytes =>
      rw [State.afterStore_mem]
      exact (Memory.readWord_eq_iff.1 (Memory.readWord_writeWord canonical _ _) k hk).symm
    case outside =>
      unfold SameMemOutside
      rw [State.afterStore_mem]
      exact (stored_writeWord _ _ _).outside canonical

/-- Settles O48: the checks of a store, alignment first. -/
theorem storesOutsideMemoryFault : Obligations.StoresOutsideMemoryFault := by
  unfold Obligations.StoresOutsideMemoryFault
  intro f s ea
  refine ⟨?sb, ?sh, fun odd => ?shOdd, ?sw, store_misaligned rfl⟩
  case sb => exact store_outOfBounds rfl (Nat.mod_one _)
  case sh => exact store_outOfBounds rfl
  case shOdd => exact store_misaligned rfl (odd ▸ Nat.one_ne_zero)
  case sw => exact store_outOfBounds rfl

/-- Settles O49: the watch acts on the state a retiring store leaves, whatever its width. -/
theorem watchedStoresEmitAndHalt : Obligations.WatchedStoresEmitAndHalt := by
  unfold Obligations.WatchedStoresEmitAndHalt
  intro i s ea n sv w set isStore aligned inside
  obtain ⟨write, v, hi⟩ := exec_eq_store_of_storeOf isStore
  have ⟨hrun, hout⟩ := s.afterStore_watched (write s.mem ea.toNat v) ea sv set
  refine ⟨_, store_retires hi aligned inside, rfl, ?_⟩
  rw [hrun, hout]
  exact ⟨fun h => if_pos h, fun h => if_neg h, fun h => if_pos h, fun h => if_neg h⟩

/-- Settles O50: the four bytes stored are the word, so its parts are those of `x[rt]`. -/
theorem aStoredWordReadsBack : Obligations.AStoredWordReadsBack := by
  unfold Obligations.AStoredWordReadsBack
  intro f s t ea v canonical aligned inside ht
  have retires := store_retires (i := .sw f) rfl aligned inside
  obtain rfl := Host.Outcome.next.inj (retires.symm.trans ht)
  rw [State.afterStore_mem]
  have word : (s.mem.writeWord ea v).readWord ea = v := Memory.readWord_writeWord canonical ea v
  refine ⟨word, fun k hk => ?byte, fun j hj => ?half, ?fetch⟩
  case byte => rw [Memory.readWord_eq_iff.1 word k hk]; rfl
  case half => rw [← Memory.readHalf_of_readWord word hj]; rfl
  case fetch =>
    rw [State.fetch_of_aligned aligned (by simpa using inside)]
    simpa using word

end Sys2Proof.Machine

/-! ### The system call (46_system R132, R133) -/

namespace Sys2Proof.Machine

section
variable {s : State}

/-- R21, R132: the handler receives the registers as they read. -/
theorem State.regFile_getElem (r : RegIdx) : s.regFile[r.toNat] = s.readReg r := by
  by_cases hr : r = 0#5
  · subst hr; simp [State.regFile]
  · have : 0 ≠ r.toNat := fun h => hr (BitVec.eq_of_toNat_eq h.symm)
    simp [State.regFile, State.readReg_of_ne s hr, this]

theorem exec_syscall (f : RFields) :
    exec (.syscall f) s =
      .next ((s.drawAnswer.applyAnswer s.hostAnswer).setPc (s.pc + 4#32)) := by
  rw [← s.drawAnswer_pc, ← s.drawAnswer.applyAnswer_pc s.hostAnswer]
  rfl

end

/-- Settles O51: drawing the answer changes only the host's fields, and the answer itself either writes
`x[2]` or halts. -/
theorem syscallAppliesTheHostsAnswer : Obligations.SyscallAppliesTheHostsAnswer := by
  unfold Obligations.SyscallAppliesTheHostsAnswer
  refine ⟨encodedR_of fun _ => rfl, fun f s => ⟨_, exec_syscall f, rfl, ?_⟩⟩
  refine ⟨⟨by simp, by simp⟩, fun _ => by simp, by simp, by simp, by simp, by simp,
    fun v answer => ?result, fun answer => ?halt⟩
  case result =>
    rw [answer]
    exact ⟨fun r => s.drawAnswer.readReg_writeReg 2#5 r v, rfl⟩
  case halt =>
    rw [answer]
    exact ⟨fun _ => rfl, rfl⟩

/-- Settles O52: the free answer is given to `State.regFile`. -/
theorem syscallAnswersComeFromTheHost : Obligations.SyscallAnswersComeFromTheHost := by
  unfold Obligations.SyscallAnswersComeFromTheHost
  intro s
  refine ⟨fun a rest settled => ?_, fun unsettled => ⟨s.regFile, ?_, fun r => s.regFile_getElem r⟩⟩
  · rw [State.hostAnswer, settled]
  · rw [State.hostAnswer, unsettled]

end Sys2Proof.Machine

/-! ### Construction and program load (70_reset_and_hazards R151 to R153) -/

namespace Sys2Proof.Machine

/-- R153: `x[29]` is `STACK_TOP`, and every other register is 0. -/
theorem State.readReg_initial (c : Config) (r : RegIdx) :
    (State.initial c).readReg r = if r = 29#5 then c.stackTop else 0#32 := by
  by_cases hr : r = 0#5
  · subst hr; rfl
  · rw [State.readReg_of_ne _ hr]
    have : 29 = r.toNat ↔ r = 29#5 := by
      rw [← BitVec.toNat_inj]; exact eq_comm
    simp [State.initial, Vector.getElem_set, this]

section
variable {m : Memory} (canonical : m.wf = true)
include canonical

/-- R152: a program changes no byte outside its own words. -/
theorem Memory.read_loadWords_of_outside {a x : Nat} (ws : List Word)
    (hx : x < a ∨ a + 4 * ws.length ≤ x) : (m.loadWords a ws).read x = m.read x := by
  induction ws generalizing m a with
  | nil => rfl
  | cons w ws ih =>
    rw [List.length_cons] at hx
    calc ((m.writeWord a w).loadWords (a + 4) ws).read x
        = (m.writeWord a w).read x := ih (Memory.wf_writeWord canonical a w) (by omega)
      _ = m.read x := (stored_writeWord m a w).outside canonical x (by omega)

/-- R152: word `j` of a program stands at its place, because the later words lie above it. -/
theorem Memory.readWord_loadWords {a j : Nat} {ws : List Word} {w : Word} (h : ws[j]? = some w) :
    (m.loadWords a ws).readWord (a + 4 * j) = w := by
  induction ws generalizing m a j with
  | nil => cases h
  | cons v ws ih =>
    have canonical' := Memory.wf_writeWord canonical a v
    cases j with
    | zero =>
      cases h
      refine Memory.readWord_eq_iff.2 fun k hk => ?_
      rw [Memory.loadWords, Memory.read_loadWords_of_outside canonical' ws (by omega)]
      exact Memory.readWord_eq_iff.1 (Memory.readWord_writeWord canonical a w) k hk
    | succ j =>
      rw [show a + 4 * (j + 1) = a + 4 + 4 * j by omega]
      exact ih canonical' h

end

/-- Settles O53: every field of the state is written out by `State.initial`. -/
theorem resetStateIsAsTheSpecSays : Obligations.ResetStateIsAsTheSpecSays := by
  unfold Obligations.ResetStateIsAsTheSpecSays
  exact fun c => ⟨rfl, rfl, (State.readReg_initial c _).trans (if_pos rfl),
    fun r hr => (State.readReg_initial c r).trans (if_neg hr), rfl, rfl, fun _ => rfl, rfl, rfl⟩

/-- Settles O54: `launch` checks the three premises and loads the words into an empty memory. -/
theorem launchLoadsTheProgram : Obligations.LaunchLoadsTheProgram := by
  unfold Obligations.LaunchLoadsTheProgram
  refine fun c program => ⟨fun hc ha fits => ?succeeds, fun bad => ?refuses⟩
  case succeeds =>
    refine ⟨_, if_pos (launchOk_iff.2 ⟨hc, ha, fits⟩), fun j b w hw hb => ?_, fun a outside => ?_,
      fun _ => rfl, ⟨rfl, rfl⟩, rfl, rfl, rfl, rfl⟩
    · exact (Memory.readWord_eq_iff.1 (Memory.readWord_loadWords rfl hw) b hb).symm
    · exact Memory.read_loadWords_of_outside rfl program outside
  case refuses =>
    refine if_neg fun ok => ?_
    obtain ⟨-, ha, fits⟩ := launchOk_iff.1 ok
    omega

end Sys2Proof.Machine
